-- ==== Sys2Proof/Word.lean ====
section
/-! DEFINITION. The widths of HWCONV3x3 (00_scope.md R6): 32-bit registers, 128-bit packed words,
8-bit samples, and the 8-bit offset inside the 256-byte register window. -/

namespace Sys2Proof

/-- The contents of one register, `REG_BITS = 32` (R6, R23). Also a 32-bit word address (R50). -/
abbrev Reg32 := BitVec 32

/-- A packed word, `WORD_BITS = 128` (R6, R13). -/
abbrev PackedWord := BitVec 128

/-- One byte: a sample (`SAMPLE_BITS = 8`, R6) or a lane of a packed word (R8). -/
abbrev Byte := BitVec 8

/-- A byte offset inside the 256-byte register window (R35, R67). -/
abbrev Offset := BitVec 8

end Sys2Proof
end

