-- ==== Sys2Proof/Config.lean ====
section
/-! DEFINITION. The parameters of HWCONV3x3 (00_scope.md R6): the fixed ones with their values, the
OPEN ones as constants without a body, and the one undefined value of 30_encoding.md R76. -/

namespace Sys2Proof.Config

/-- `SAMPLES_PER_WORD` (R6). -/
def samplesPerWord : Nat := 16

/-- `OUT_MIN` (R6). -/
def outMin : Int := 0

/-- `OUT_MAX` (R6). -/
def outMax : Int := 255

/-- The two boundary policies the source allows (R6, R123). -/
inductive Boundary where
  | replicate
  | zero
  deriving DecidableEq, Repr

/-- `BOUNDARY`, fixed for this hardware (R6, decision D6). -/
def boundary : Boundary := .replicate

/-- `MEM_WORDS`, the OPEN number of 128-bit words of data memory, at most `2^32` (R6, R50, U15). It has no
body: nothing is known of it but its bound. DESIGN CHOICE (log 3): safe. -/
opaque memWords : Fin (2 ^ 32 + 1)

/-- `REG_BASE`, the OPEN byte address at which the platform places the register window (R6, R23, U16).
DESIGN CHOICE (log 4): safe. -/
opaque regBase : Nat

/-- The value of an infinity or a NaN, which R76 calls undefined: uninterpreted. DESIGN CHOICE (log 12): safe. -/
opaque nonFinite : Reg32 → Rat

end Sys2Proof.Config
end

