-- ==== Sys2Proof/Machine/Binary32.lean ====
section
/-! DEFINITION. Binary32 patterns (30_encoding.md R75 to R77): their fields, predicates and exact values; and the pattern
of an exactly representable decimal, which WRF needs (R84). -/

namespace Sys2Proof.Machine

/-- Bit 31 (R75). -/
def f32sign (b : Reg32) : Bool := b[31]

/-- The biased exponent, bits 30..23 (R75). -/
def f32exp (b : Reg32) : Nat := (b.extractLsb' 23 8).toNat

/-- The fraction, bits 22..0 (R75). -/
def f32frac (b : Reg32) : Nat := (b.extractLsb' 0 23).toNat

/-- `finite(b)`: the exponent field is not 0xFF (R77). -/
def f32finite (b : Reg32) : Bool := f32exp b != 0xFF

/-- `iszero(b)`: bits 30..0 are 0, so both zeros (R77). -/
def f32isZero (b : Reg32) : Bool := b.extractLsb' 0 31 == 0

/-- `(-1)^s` (R76). -/
def signValue (s : Bool) : Rat := if s then -1 else 1

/-- `f32val(b)`, the exact value of a pattern (R76): zero or subnormal, normal, or undefined. -/
def f32val (b : Reg32) : Rat :=
  if f32exp b = 0 then signValue (f32sign b) * f32frac b * 2 ^ (-149 : Int)
  else if f32exp b ≤ 254 then signValue (f32sign b) * (2 ^ 23 + f32frac b) * 2 ^ ((f32exp b : Int) - 150)
  else Config.nonFinite b

/-- A decimal constant of a host program: sign, digits and a power of ten (R84). -/
structure Decimal where
  neg : Bool
  digits : Nat
  exp10 : Int
  deriving DecidableEq, Repr

/-- The magnitude a decimal denotes. -/
def Decimal.magnitude (d : Decimal) : Rat := d.digits * 10 ^ d.exp10

/-- The number a decimal denotes. -/
def Decimal.value (d : Decimal) : Rat := signValue d.neg * d.magnitude

/-- The fields (exponent, fraction) of the pattern whose magnitude is `m * 2^(-149)`, when there is one (R76 read
backwards): `m < 2^23` is a zero or a subnormal, a larger `m` must be a 24-bit number times a power of two. -/
def f32fields (m : Nat) : Option (Nat × Nat) :=
  if m < 2 ^ 23 then some (0, m)
  else if Nat.log2 m - 23 + 1 ≤ 254 ∧ m % 2 ^ (Nat.log2 m - 23) = 0 then
    some (Nat.log2 m - 23 + 1, m / 2 ^ (Nat.log2 m - 23) - 2 ^ 23)
  else none

/-- The pattern with these fields (R75). -/
def f32pack (s : Bool) (e f : Nat) : Reg32 := BitVec.ofBool s ++ BitVec.ofNat 8 e ++ BitVec.ofNat 23 f

/-- The binary32 pattern of a decimal, where it is exactly representable (R84). A decimal zero keeps its sign:
DESIGN CHOICE (log 18), safe. -/
def f32ofDecimal (d : Decimal) : Option Reg32 :=
  if (d.magnitude * 2 ^ 149).den = 1 then
    match f32fields (d.magnitude * 2 ^ 149).num.toNat with
    | some (e, f) => some (f32pack d.neg e f)
    | none => none
  else none

end Sys2Proof.Machine
end

