-- ==== Sys2Proof/Machine/Lanes.lean ====
section
/-! DEFINITION. The lanes of a packed word (00_scope.md R8, 20_memory.md R52, 40_codec.md R102): byte `k` is bits
`[8k+7:8k]`, byte 0 least significant. -/

namespace Sys2Proof.Machine

/-- Byte `k` of a packed word (R8, R102). -/
def lane (w : PackedWord) (k : Nat) : Byte := w.extractLsb' (8 * k) 8

/-- The word `{byte_15, byte_14, ..., byte_1, byte_0}` (R106, concatenation of R9). -/
def ofLanes (f : Nat → Byte) : PackedWord :=
  f 15 ++ f 14 ++ f 13 ++ f 12 ++ f 11 ++ f 10 ++ f 9 ++ f 8 ++
    f 7 ++ f 6 ++ f 5 ++ f 4 ++ f 3 ++ f 2 ++ f 1 ++ f 0

end Sys2Proof.Machine
end

