-- ==== Sys2Proof/Machine/Codec.lean ====
section
/-! DEFINITION. The packed-word codec (40_codec.md): the flat index (R100), the counts (R101), UNPACK (R103) and PACK (R106). -/

namespace Sys2Proof.Machine

/-- A pixel grid `G[x][y][c]`: internal to the block, never state (R13, R36). Only in-range coordinates matter. -/
abbrev Grid := Nat → Nat → Nat → Byte

/-- `idx(x, y, c) = (y * W + x) * C + c` (R100). -/
def idx (W C x y c : Nat) : Nat := (y * W + x) * C + c

/-- The column of flat index `i` (R100 inverted). -/
def idxX (W C i : Nat) : Nat := i / C % W

/-- The row of flat index `i` (R100 inverted). -/
def idxY (W C i : Nat) : Nat := i / C / W

/-- The channel of flat index `i` (R100 inverted). -/
def idxC (C i : Nat) : Nat := i % C

/-- `N = W * H * C` (R101). -/
def gridSamples (W H C : Nat) : Nat := W * H * C

/-- `NW = (N + 15) div 16` (R101). -/
def gridWords (W H C : Nat) : Nat := (gridSamples W H C + 15) / Config.samplesPerWord

/-- Sample `i` of a sequence of packed words: lane `i mod 16` of word `i div 16` (R52, R102). -/
def sampleAt (IN : List PackedWord) (i : Nat) : Byte :=
  lane (IN.getD (i / Config.samplesPerWord) 0) (i % Config.samplesPerWord)

/-- UNPACK (R103). -/
def unpack (IN : List PackedWord) (W C : Nat) : Grid := fun x y c => sampleAt IN (idx W C x y c)

/-- The sample of flat index `i`, and 0x00 in the trailing lanes (R106, R107). -/
def packByte (G : Grid) (W H C i : Nat) : Byte :=
  if i < gridSamples W H C then G (idxX W C i) (idxY W C i) (idxC C i) else 0x00

/-- PACK (R106). -/
def pack (G : Grid) (W H C : Nat) : List PackedWord :=
  (List.range (gridWords W H C)).map fun j => ofLanes fun k => packByte G W H C (Config.samplesPerWord * j + k)

end Sys2Proof.Machine
end

