-- ==== Sys2Proof/Machine/Engine.lean ====
section
/-! DEFINITION. The convolution engine (41_engine.md): GATHER (R122), its ZERO variant (R123), MAC (R124), SCALE (R125),
CLAMP (R126) and APPLY (R127), in exact arithmetic (R9, D4), and FILTERWORDS (42_commands.md R154). -/

namespace Sys2Proof.Machine

/-- `clampI(n, lo, hi)` (R12). -/
def clampI (n lo hi : Int) : Int := min (max n lo) hi

/-- GATHER: the neighbour's sample with the border replicated (R122). -/
def gather (G : Grid) (W H x y c : Nat) (dx dy : Int) : Int :=
  (G (clampI (x + dx) 0 (W - 1)).toNat (clampI (y + dy) 0 (H - 1)).toNat c).toNat

/-- GATHER_ZERO: the source's other boundary policy, which this hardware does not have (R123). -/
def gatherZero (G : Grid) (W H x y c : Nat) (dx dy : Int) : Int :=
  if 0 ≤ x + dx ∧ x + dx < W ∧ 0 ≤ y + dy ∧ y + dy < H then
    (G (x + dx : Int).toNat (y + dy : Int).toNat c).toNat
  else 0

/-- The gather of a boundary policy (R6, R122, R123). -/
def gatherWith : Config.Boundary → Grid → Nat → Nat → Nat → Nat → Nat → Int → Int → Int
  | .replicate => gather
  | .zero => gatherZero

/-- The offsets `{-1, 0, +1}` (R122). -/
def offsets : List Int := [-1, 0, 1]

/-- `k = 3*(dy+1) + (dx+1)` (R81). -/
def weightIndex (dx dy : Int) : Fin 9 := Fin.ofNat 9 (3 * (dy + 1) + (dx + 1)).toNat

/-- The (dx, dy) of the nine products in the order of R124's loops. -/
def neighbours : List (Int × Int) := offsets.flatMap fun dy => offsets.map fun dx => (dx, dy)

/-- MAC over the samples `g dx dy` of a neighbourhood: exact, no rounding (R124). -/
def macOver (wv : Fin 9 → Rat) (g : Int → Int → Int) : Rat :=
  neighbours.foldl (fun sum o => sum + wv (weightIndex o.1 o.2) * g o.1 o.2) 0

/-- MAC (R124) with a boundary policy. -/
def mac (b : Config.Boundary) (G : Grid) (W H : Nat) (wv : Fin 9 → Rat) (x y c : Nat) : Rat :=
  macOver wv (gatherWith b G W H x y c)

/-- `rne(q)`: the nearest integer, a tie to the even one (R12, R125). -/
def rne (q : Rat) : Int :=
  if q - q.floor < 1 / 2 then q.floor
  else if q - q.floor > 1 / 2 then q.floor + 1
  else if q.floor % 2 = 0 then q.floor
  else q.floor + 1

/-- SCALE: exact division and one rounding (R125). -/
def scale (sum dv : Rat) : Int := rne (sum / dv)

/-- CLAMP: saturation to 0..255 (R126). -/
def clamp (r : Int) : Byte := BitVec.ofNat 8 (clampI r Config.outMin Config.outMax).toNat

/-- APPLY (R127) with a boundary policy. -/
def applyWith (b : Config.Boundary) (G : Grid) (W H : Nat) (wv : Fin 9 → Rat) (dv : Rat) : Grid :=
  fun x y c => clamp (scale (mac b G W H wv x y c) dv)

/-- APPLY of this hardware (R127, R6). -/
def applyGrid (G : Grid) (W H : Nat) (wv : Fin 9 → Rat) (dv : Rat) : Grid := applyWith Config.boundary G W H wv dv

/-- FILTERWORDS (R154): UNPACK, APPLY, PACK. -/
def filterWords (IN : List PackedWord) (W H C : Nat) (w : Vector Reg32 9) (d : Reg32) : List PackedWord :=
  pack (applyGrid (unpack IN W C) W H (fun k => f32val w[k.val]) (f32val d)) W H C

end Sys2Proof.Machine
end

