-- ==== Sys2Proof/Machine/Bus.lean ====
section
/-! DEFINITION. What the host does (30_encoding.md R83, R84; 42_commands.md R158): the lines of its program, the values
it reads, and the turns of the interleaving (R159). -/

namespace Sys2Proof.Machine

/-- One line of the host's program (R83, R84). A register access carries its offset in the window and its size in
bytes, so that the bad accesses of R35 can be written; a data access carries a word address (R50). R54 leaves the width of the
host's data accesses to the platform: here it is a whole word or one byte, and an access of another width is several byte lines:
DESIGN CHOICE (log 24), safe within one word, unsafe for a faulting access across two. -/
inductive HostLine where
  /-- `WR <REG>, <imm32>`: a write of `v`. -/
  | wr (off : Offset) (size : Nat) (v : Reg32)
  /-- `RD <REG>`: a read. -/
  | rd (off : Offset) (size : Nat)
  /-- `WRF <REG>, <decimal>`: a write of the binary32 pattern of the decimal (R84). -/
  | wrf (off : Offset) (d : Decimal)
  /-- `MEMW <a>, <imm128>`: a host write of data word `a`. -/
  | memw (a : Reg32) (v : PackedWord)
  /-- `MEMR <a>`: a host read of data word `a`. -/
  | memr (a : Reg32)
  /-- A host write of byte `k` of data word `a` (the byte view of R53). DESIGN CHOICE (log 17): safe. -/
  | memwb (a : Reg32) (k : Fin 16) (v : Byte)
  /-- A host read of byte `k` of data word `a` (R53). DESIGN CHOICE (log 17): safe. -/
  | memrb (a : Reg32) (k : Fin 16)
  /-- `POLL`: read STATUS until STATE is not BUSY (R84). -/
  | poll
  deriving DecidableEq, Repr

/-- A value a host read returned (R83). -/
inductive HostRead where
  | reg (v : Reg32)
  | word (v : PackedWord)
  | byte (v : Byte)
  deriving DecidableEq, Repr

/-- One turn of the interleaving (R158, R159): who moves, with all that is free about the move. DESIGN CHOICE
(log 5): safe. -/
inductive Turn where
  /-- The host executes the next line of its program. `seesNew` is the free draw of an early read (R64): the final
  value if true, the old one if false. -/
  | host (seesNew : Bool)
  /-- The host's idle step (R158). -/
  | idle
  /-- The block takes its step, if it has one. `pick` is the free choice of the word index it writes (R155). -/
  | block (pick : Nat)
  /-- The platform resets the block (R190, R191). -/
  | reset
  deriving DecidableEq, Repr

end Sys2Proof.Machine
end

