-- ==== Sys2Proof/Machine/Registers.lean ====
section
/-! DEFINITION. The names of the register block (10_state.md R23), the values of the STATUS fields
(R26, R27) and the offsets of the registers (R23). -/

namespace Sys2Proof.Machine

/-- The 17 operand registers WIDTH .. OUT_WORDS (R28 to R32, R38). -/
inductive OpReg where
  | width | height | channels | divisor
  /-- WEIGHT0 .. WEIGHT8 (R30). -/
  | weight (k : Fin 9)
  | inBase | inWords | outBase | outWords
  deriving DecidableEq, Repr

/-- The 19 registers of the block (R23). -/
inductive Reg where
  | ctrl | status
  | op (r : OpReg)
  deriving DecidableEq, Repr

/-- The values of STATUS.STATE (R25, R26). -/
inductive BlockState where
  | idle | busy | done | error
  deriving DecidableEq, Repr

/-- The values of STATUS.ERR that the block produces (R27). -/
inductive ErrCode where
  | none | shape | config | illegal
  deriving DecidableEq, Repr

/-- The architectural errors (R170 to R173): the ERR codes other than NONE. -/
inductive ArchError where
  | shape | config | illegal
  deriving DecidableEq, Repr

/-- The ERR code of an architectural error (R27). -/
def ArchError.code : ArchError → ErrCode
  | .shape => .shape
  | .config => .config
  | .illegal => .illegal

/-- The number of STATUS.STATE (R25). -/
def BlockState.bits : BlockState → BitVec 2
  | .idle => 0
  | .busy => 1
  | .done => 2
  | .error => 3

/-- The number of STATUS.ERR (R25, R27). -/
def ErrCode.bits : ErrCode → BitVec 4
  | .none => 0
  | .shape => 1
  | .config => 2
  | .illegal => 3

/-- The operand registers in the order of R23. -/
def OpReg.all : List OpReg :=
  [.width, .height, .channels, .divisor,
   .weight 0, .weight 1, .weight 2, .weight 3, .weight 4, .weight 5, .weight 6, .weight 7, .weight 8,
   .inBase, .inWords, .outBase, .outWords]

/-- The byte offset of a register in the window (the table of R23). -/
def Reg.offset : Reg → Offset
  | .ctrl => 0x00
  | .status => 0x04
  | .op .width => 0x08
  | .op .height => 0x0C
  | .op .channels => 0x10
  | .op .divisor => 0x14
  | .op (.weight k) => 0x18 + BitVec.ofNat 8 (4 * k.val)
  | .op .inBase => 0x3C
  | .op .inWords => 0x40
  | .op .outBase => 0x44
  | .op .outWords => 0x48

end Sys2Proof.Machine
end

