-- ==== Sys2Proof/Machine/State.lean ====
section
/-! DEFINITION. The state of the machine as plain data (10_state.md R38), its value after reset (R39), and the reasons a
step can stop (60_exceptions.md R178). -/

namespace Sys2Proof.Machine

/-- The model faults: situations the spec gives no result for (R178). Each is safe: it leaves a claim about the run
unprovable. -/
inductive Fault where
  /-- `F_UNWRITTEN`: raised by a host read, or by the validation of a FILTER, of an operand register before its first
  write (R33). Safe. -/
  | unwritten
  /-- `F_BUSY_WRITE`: raised by a host write to the register window, CTRL included, while STATE = BUSY (R161). Safe. -/
  | busyWrite
  /-- `F_BUSY_MEM`: raised by a host write to a word of the used input or used output range while STATE = BUSY (R64,
  R196). Safe. -/
  | busyMem
  /-- `F_OVERLAP`: raised by the validation of a FILTER whose used ranges share a word (R61). Safe. -/
  | overlap
  /-- `F_BAD_ACCESS`: raised by a host register access that is not 32 bits wide, not at a multiple of 4, or at a
  reserved offset (R35). Safe. -/
  | badAccess
  /-- Raised by a host data access at a word address that data memory does not have (R50: `a < MEM_WORDS`). The
  model's own name, DESIGN CHOICE (log 11). Safe. -/
  | noSuchWord
  deriving DecidableEq, Repr

/-- The refusals of the model. -/
inductive Refusal where
  /-- Raised by an arm of exec whose instruction has no meaning yet; no arm does so now. Safe. -/
  | notModelled (mnemonic : String)
  /-- Raised by a WRF line whose decimal binary32 cannot represent: the spec refuses the line (R84, R178, U22). Safe. -/
  | wrfNotRepresentable
  deriving DecidableEq, Repr

/-- The operand registers (R28 to R32). `none` is the spec's own state "unwritten" (R33, R38, R39): an unwritten register
holds no value, and a model must not pick one (log 1). -/
structure Regs where
  width : Option Reg32
  height : Option Reg32
  channels : Option Reg32
  divisor : Option Reg32
  /-- WEIGHT0 .. WEIGHT8. -/
  weights : Vector (Option Reg32) 9
  inBase : Option Reg32
  inWords : Option Reg32
  outBase : Option Reg32
  outWords : Option Reg32
  deriving DecidableEq, Repr

/-- A command that has been accepted and is not yet validated (R37): FILTER or RESERVED(v). -/
inductive PendingCmd where
  | filter
  | reserved (v : Reg32)
  deriving DecidableEq, Repr

/-- The job record (R37). -/
inductive Job where
  | none
  /-- Accepted, not yet validated. -/
  | pending (c : PendingCmd)
  /-- `writing(R, todo)`: the result words and the word indices not yet written. `old` is the model's own: the output
  words' contents at validation, which an early read may still return (R64; DESIGN CHOICE, log 8: safe). -/
  | writing (result : List PackedWord) (todo : List Nat) (old : List PackedWord)
  deriving DecidableEq, Repr

/-- Data memory as pairs of a byte number and a byte. Byte `k` of data word `a` has the number `16 * a + k`, the byte view
of R53 (D26). -/
abbrev Memory := List Host.Cell

/-- What an unlisted byte reads as. It only fixes how contents are written down: every contents of data memory is some list,
and R190's launch input is any of them (`State.launch`). DESIGN CHOICE (log 2), unsafe for `State.reset` alone. -/
def Memory.unlisted : Byte := 0

/-- The canonical form: byte numbers strictly rising, and no entry equal to what an unlisted byte reads as. -/
abbrev Memory.wf (m : Memory) : Prop :=
  (m.map Prod.fst).Pairwise (· < ·) ∧ ∀ c ∈ m, c.2 ≠ Memory.unlisted

/-- The state of the machine (R38) with the two agents' pending inputs. -/
structure State where
  /-- STATUS.STATE (R26). -/
  state : BlockState
  /-- STATUS.ERR (R27). -/
  err : ErrCode
  /-- The operand registers (R28 to R33). -/
  regs : Regs
  /-- The job record (R37). -/
  job : Job
  /-- Data memory `M` (R50). -/
  mem : Memory
  /-- The sticky fault mark (R38, R178). -/
  faultMark : Option Fault
  /-- The sticky refusal mark (R38, R178). -/
  refusalMark : Option Refusal
  /-- `MEM_WORDS` (R6, R50): fixed for a launch, written by no step (log 3). -/
  memWords : Fin (2 ^ 32 + 1)
  /-- The host's remaining program (R83, R158). -/
  prog : List HostLine
  /-- The values the host's reads returned, newest first (R83). -/
  reads : List HostRead
  /-- The interleaving still to come (R159); when it is used up the schedule is the eager one (log 5). -/
  turns : List Turn
  deriving DecidableEq, Repr

/-- Every operand register unwritten (R33, R39). -/
def Regs.unwritten : Regs where
  width := none
  height := none
  channels := none
  divisor := none
  weights := Vector.replicate 9 none
  inBase := none
  inWords := none
  outBase := none
  outWords := none

/-- The machine at the start of a launch (R39, R190) on data memory `m`. What data memory holds at power-on is the
platform's: `m` is the unconstrained launch input of R190 and U8. An empty `turns` is DESIGN CHOICE (log 5, unsafe);
`MEM_WORDS` is the OPEN parameter (log 3, safe). -/
def State.launch (m : Memory) : State where
  state := .idle
  err := .none
  regs := Regs.unwritten
  job := .none
  mem := m
  faultMark := none
  refusalMark := none
  memWords := Config.memWords
  prog := []
  reads := []
  turns := []

/-- The machine right after reset (R39): the launch on a data memory with nothing listed, one of the launches of
`State.launch`. That it is this one is DESIGN CHOICE (log 2, unsafe). -/
def State.reset : State := State.launch []

end Sys2Proof.Machine
end

