-- ==== Sys2Proof/Machine/Operands.lean ====
section
/-! DEFINITION. The operand registers (10_state.md R28 to R34), the job descriptor the validation step reads
(30_encoding.md R78 to R80) and the verdict of that step (42_commands.md R153, 60_exceptions.md R171 to R174, R180). -/

namespace Sys2Proof.Machine

/-- The contents of an operand register; `none` while it is unwritten (R33). -/
def Regs.get (r : Regs) : OpReg → Option Reg32
  | .width => r.width
  | .height => r.height
  | .channels => r.channels
  | .divisor => r.divisor
  | .weight k => r.weights[k.val]
  | .inBase => r.inBase
  | .inWords => r.inWords
  | .outBase => r.outBase
  | .outWords => r.outWords

/-- Writing an operand register: it holds `v`, every other register is unchanged (R34). -/
def Regs.set (r : Regs) (o : OpReg) (v : Reg32) : Regs :=
  match o with
  | .width => { r with width := some v }
  | .height => { r with height := some v }
  | .channels => { r with channels := some v }
  | .divisor => { r with divisor := some v }
  | .weight k => { r with weights := r.weights.set k.val (some v) }
  | .inBase => { r with inBase := some v }
  | .inWords => { r with inWords := some v }
  | .outBase => { r with outBase := some v }
  | .outWords => { r with outWords := some v }

/-- The job descriptor (R80): dimensions read as signed (R78), addresses and counts as unsigned (R79), divisor and weights
as binary32 patterns. -/
structure Descriptor where
  W : Int
  H : Int
  C : Int
  d : Reg32
  w : Vector Reg32 9
  ib : Nat
  iw : Nat
  ob : Nat
  ow : Nat
  deriving DecidableEq, Repr

/-- All 17 operand registers have been written (R193, the test of R153 part 1). -/
def Regs.allWritten (r : Regs) : Bool := OpReg.all.all fun o => (r.get o).isSome

/-- The contents of a register that has been written. It is used only where `allWritten` holds: the default stands for no
value of an unwritten register (R33). -/
def Regs.value (r : Regs) (o : OpReg) : Reg32 := (r.get o).getD 0

/-- The descriptor the registers hold when all are written (R78 to R80). -/
def Regs.readDescriptor (r : Regs) : Descriptor where
  W := (r.value .width).toInt
  H := (r.value .height).toInt
  C := (r.value .channels).toInt
  d := r.value .divisor
  w := #v[r.value (.weight 0), r.value (.weight 1), r.value (.weight 2), r.value (.weight 3), r.value (.weight 4),
    r.value (.weight 5), r.value (.weight 6), r.value (.weight 7), r.value (.weight 8)]
  ib := (r.value .inBase).toNat
  iw := (r.value .inWords).toNat
  ob := (r.value .outBase).toNat
  ow := (r.value .outWords).toNat

/-- Reading the job descriptor (R153 part 1): none if any of the 17 registers is unwritten. -/
def Regs.descriptor (r : Regs) : Option Descriptor := if r.allWritten = true then some r.readDescriptor else none

/-- `N = W*H*C`, a mathematical integer (R78, R101). -/
def Descriptor.sampleCount (d : Descriptor) : Int := d.W * d.H * d.C

/-- `NW = (N + 15) div 16` (R101), the length of a used range: no word when `N` is not positive. -/
def wordsOf (n : Int) : Nat := ((n + 15) / 16).toNat

/-- `NW` of a descriptor (R101). -/
def Descriptor.wordCount (d : Descriptor) : Nat := wordsOf d.sampleCount

/-- The architectural checks of a FILTER in the order of R174 (R153 part 2, R171, R172). -/
def Descriptor.archError (d : Descriptor) : Option ArchError :=
  if d.W ≤ 0 ∨ d.H ≤ 0 ∨ d.C ≤ 0 then some .shape
  else if d.iw < d.wordCount then some .shape
  else if d.ow < d.wordCount then some .shape
  else if f32isZero d.d = true ∨ f32finite d.d = false then some .config
  else if ∃ k : Fin 9, f32finite d.w[k.val] = false then some .config
  else none

/-- Word address `a` lies in the `n` words from `base` on: the used ranges of R51. -/
def inRange (base n a : Nat) : Bool := decide (base ≤ a) && decide (a < base + n)

/-- The used input and the used output range share a word address (R61). -/
def Descriptor.overlaps (d : Descriptor) : Bool :=
  decide (d.ib < d.ob + d.wordCount) && decide (d.ob < d.ib + d.wordCount)

/-- A used range reaches past data memory (R59, R153 part 3). -/
def Descriptor.pastMemory (d : Descriptor) (memWords : Nat) : Bool :=
  decide (memWords < d.ib + d.wordCount) || decide (memWords < d.ob + d.wordCount)

/-- What the validation step of a FILTER does (R153). -/
inductive Verdict where
  /-- fault `F_UNWRITTEN` -/
  | unwritten
  /-- end with an architectural error -/
  | error (e : ArchError)
  /-- fault `F_OVERLAP` -/
  | overlap
  /-- stuck `S_MEM_RANGE` -/
  | stuck
  /-- compute and write -/
  | go (d : Descriptor)
  deriving DecidableEq, Repr

/-- The verdict on a descriptor, in the order of R153 and R180. -/
def Descriptor.verdict (d : Descriptor) (memWords : Nat) : Verdict :=
  match d.archError with
  | some e => .error e
  | none =>
    if d.overlaps = true then .overlap
    else if d.pastMemory memWords = true then .stuck
    else .go d

/-- The verdict of the validation step: unwritten registers first (R153, R180). -/
def State.verdict (s : State) : Verdict :=
  match s.regs.descriptor with
  | none => .unwritten
  | some d => d.verdict s.memWords.val

/-- `NW` as the dimension registers give it, whatever the other registers hold (R51, R78, R101); none while one of the three
is unwritten, and so holds no value (R33). -/
def Regs.usedWords (r : Regs) : Option Nat :=
  r.width.bind fun w => r.height.bind fun h => r.channels.map fun c => wordsOf (w.toInt * h.toInt * c.toInt)

/-- Word `a` is one of the NW words from the base register's address on (R51). An unwritten base gives no range: DEDUCED
(log 10), unsafe. -/
def Regs.inUsedRange (r : Regs) (base : Option Reg32) (a : Nat) : Bool :=
  match r.usedWords, base with
  | some n, some b => inRange b.toNat n a
  | some _, none => false
  | none, _ => false

/-- A FILTER has been accepted and has not ended. Only a FILTER has used ranges (R51). -/
def State.filterInProgress (s : State) : Bool :=
  match s.job with
  | .none => false
  | .pending (.reserved _) => false
  | .pending .filter => true
  | .writing _ _ _ => true

/-- Word `a` is in the used input or the used output range of the FILTER in progress (R51, R64, R196). -/
def State.usesWord (s : State) (a : Nat) : Bool :=
  s.filterInProgress && (s.regs.inUsedRange s.regs.inBase a || s.regs.inUsedRange s.regs.outBase a)

end Sys2Proof.Machine
end

