-- ==== Sys2Proof/Machine/Ops.lean ====
section
/-! DEFINITION. The operations the meanings share: data memory by bytes and by words (20_memory.md R50 to R54), ending a
command with an architectural error (42_commands.md R153, 60_exceptions.md R170, R175), the register-window guard (R161),
and the sticky marks (R178). -/

namespace Sys2Proof.Machine

/-- One byte of data memory. -/
def Memory.readByte : Memory → Nat → Byte
  | [], _ => Memory.unlisted
  | (k, b) :: m, a => if k = a then b else Memory.readByte m a

/-- Setting one byte of data memory; the list stays canonical. -/
def Memory.writeByte : Memory → Nat → Byte → Memory
  | [], a, b => if b = Memory.unlisted then [] else [(a, b)]
  | (k, c) :: m, a, b =>
    if a < k then (if b = Memory.unlisted then (k, c) :: m else (a, b) :: (k, c) :: m)
    else if a = k then (if b = Memory.unlisted then m else (a, b) :: m)
    else (k, c) :: Memory.writeByte m a b

/-- The number of byte `k` of data word `a` (R53, D26). -/
def byteNumber (a k : Nat) : Nat := Config.samplesPerWord * a + k

/-- `MemRead(a, 16)`: the word `M[a]` (R50). -/
@[irreducible] def Memory.readWord (m : Memory) (a : Nat) : PackedWord := ofLanes fun k => m.readByte (byteNumber a k)

/-- The bytes `k` to `k + n - 1` of data word `a`, set to those of `v`. -/
def Memory.writeLanes (m : Memory) (a : Nat) (v : PackedWord) (k : Nat) : Nat → Memory
  | 0 => m
  | n + 1 => (m.writeByte (byteNumber a k) (lane v k)).writeLanes a v (k + 1) n

/-- `MemWrite(a, 16, v)`: `M[a] <- v`, all 128 bits (R50, R55). -/
@[irreducible] def Memory.writeWord (m : Memory) (a : Nat) (v : PackedWord) : Memory := m.writeLanes a v 0 Config.samplesPerWord

/-- Data memory has word address `a` (R50). -/
def State.hasWord (s : State) (a : Nat) : Bool := decide (a < s.memWords.val)

/-- "end with E" (R153): the shared way in which a command ends with an architectural error. STATE and ERR report it
and the job is over; nothing else changes (R170, R175). There is no saved state and no return (R176). -/
def State.endWithError (s : State) (e : ArchError) : State :=
  { s with state := .error, err := e.code, job := .none }

/-- A host write to the register window is the fault `F_BUSY_WRITE` while STATE = BUSY, and otherwise has the effect `k`
(R34, R161). -/
def unlessBusy (s : State) (k : Host.Outcome State Fault Refusal) : Host.Outcome State Fault Refusal :=
  if s.state = .busy then .fault .busyWrite else k

/-- Accepting a FILTER or a reserved command (R152, R157). -/
def State.accept (s : State) (c : PendingCmd) : State :=
  { s with state := .busy, err := .none, job := .pending c }

/-- Reset of the block (R39, R190, R191): STATUS and the job as after power-on, every operand register unwritten. Data
memory and the marks stay. The host's program goes on: DESIGN CHOICE (log 21), safe. -/
def State.resetBlock (s : State) : State :=
  { s with state := .idle, err := .none, job := .none, regs := Regs.unwritten }

/-- The sticky mark of a stop (R178): the reason a step stopped for, recorded in the state. -/
def State.marked (s : State) : Host.Outcome State Fault Refusal → State
  | .next s' => s'
  | .fault f => { s with faultMark := some f }
  | .refused r => { s with refusalMark := some r }

end Sys2Proof.Machine
end

