-- ==== Sys2Proof/Machine/Block.lean ====
section
/-! DEFINITION. The block's steps (42_commands.md R153 to R157, R158): validate, write, complete; and the whole command as
one function (R162). -/

namespace Sys2Proof.Machine

/-- The `n` words from word address `base` on (R51, R154). -/
def Memory.readWords (m : Memory) (base n : Nat) : List PackedWord :=
  (List.range n).map fun j => m.readWord (base + j)

/-- The result words of a descriptor over a snapshot of data memory (R153 part 4, R154). -/
def Descriptor.result (d : Descriptor) (m : Memory) : List PackedWord :=
  filterWords (m.readWords d.ib d.wordCount) d.W.toNat d.H.toNat d.C.toNat d.w d.d

/-- The job after validation (R153 part 4): all NW words are to be written. -/
def Descriptor.startWriting (d : Descriptor) (m : Memory) : Job :=
  .writing (d.result m) (List.range d.wordCount) (m.readWords d.ob d.wordCount)

/-- FILTER, validate (R153). A stuck command has no step: STATE stays BUSY and the job stays pending (R59, R179). -/
def validate (s : State) : Host.Outcome State Fault Refusal :=
  match s.verdict with
  | .unwritten => .fault .unwritten
  | .error e => .next (s.endWithError e)
  | .overlap => .fault .overlap
  | .stuck => .next s
  | .go d => .next { s with job := d.startWriting s.mem }

/-- The index a turn of the block writes: any index of `todo` can be picked (R155; DESIGN CHOICE, log 16: safe). -/
def pickIndex (todo : List Nat) (pick : Nat) : Nat := todo.getD (pick % todo.length) 0

/-- FILTER, write (R155): `MemWrite(OB + j, 16, R[j])` and `j` leaves `todo`. In states that no run reaches, where
OUT_BASE is unwritten, the address is past memory or there is no result word, it has no step: DESIGN CHOICE (log 19),
safe. -/
def blockWrite (result : List PackedWord) (todo : List Nat) (old : List PackedWord) (j : Nat) (s : State) :
    Host.Outcome State Fault Refusal :=
  match s.regs.outBase with
  | none => .next s
  | some ob =>
    match result[j]? with
    | none => .next s
    | some v =>
      if s.hasWord (ob.toNat + j) = true then
        .next { s with mem := s.mem.writeWord (ob.toNat + j) v, job := .writing result (todo.erase j) old }
      else .next s

/-- FILTER, complete (R156). -/
def complete (s : State) : Host.Outcome State Fault Refusal := .next { s with state := .done, job := .none }

/-- The block's step (R158): none when there is no job. -/
def blockStep (pick : Nat) (s : State) : Host.Outcome State Fault Refusal :=
  match s.job with
  | .none => .next s
  | .pending .filter => validate s
  | .pending (.reserved _) => .next (s.endWithError .illegal)
  | .writing result todo old =>
    if todo = [] then complete s else blockWrite result todo old (pickIndex todo pick) s

/-- The block has an enabled step (R158, R179). -/
def State.blockEnabled (s : State) : Bool :=
  match s.job with
  | .none => false
  | .pending .filter => decide (s.verdict ≠ .stuck)
  | .pending (.reserved _) => true
  | .writing _ _ _ => true

/-- Data memory with the words of a list written from word address `base` on. -/
def Memory.writeWords (m : Memory) (base : Nat) : List PackedWord → Memory
  | [] => m
  | v :: vs => (m.writeWord base v).writeWords (base + 1) vs

/-- FILTER_ATOMIC (R162): the whole effect of a FILTER on STATUS and data memory. -/
def filterAtomic (d : Descriptor) (m : Memory) : BlockState × ErrCode × Memory :=
  match d.archError with
  | some e => (.error, e.code, m)
  | none => (.done, .none, m.writeWords d.ob (d.result m))

end Sys2Proof.Machine
end

