-- ==== Sys2Proof/Syntax.lean ====
section
/-! DEFINITION. The instructions of HWCONV3x3: the two rows of spec/opcode_table.json. They are the
command words a host writes to CTRL (00_scope.md R3, 30_encoding.md R70, R71) and carry no operand field. -/

namespace Sys2Proof

/-- One constructor per row of spec/opcode_table.json. -/
inductive Instr where
  /-- CLEAR, CTRL = 0x00000000 (R71, R151). -/
  | clear
  /-- FILTER, CTRL = 0x00000001 (R71, R152 to R156). -/
  | filter
  deriving DecidableEq, Repr

end Sys2Proof
end

