-- ==== Sys2Proof/Decode.lean ====
section
/-! DEFINITION. The decoders of 30_encoding.md: the CTRL command word (R70 to R72, R82), the register
offset (R23, R35) and the STATUS word as a host reads it (R74). After them the encoders. -/

namespace Sys2Proof

/-- What the CTRL decoder says of a value: a command of the opcode table, or the verdict RESERVED (R82). -/
inductive Cmd where
  | instr (i : Instr)
  | reserved (v : Reg32)
  deriving DecidableEq, Repr

/-- The field OP of a command word (R70). -/
def ctrlOp (v : Reg32) : BitVec 4 := v.extractLsb' 0 4

/-- The field RSVD of a command word (R70). -/
def ctrlRsvd (v : Reg32) : BitVec 28 := v.extractLsb' 4 28

/-- The CTRL decoder, total on every 32-bit value (R82). A nonzero RSVD field makes the value reserved
whatever OP is, and OP 0x2 to 0xF are reserved (R71, R72). -/
def decodeCtrl (v : Reg32) : Cmd :=
  if ctrlRsvd v = 0 then
    if ctrlOp v = 0x0 then .instr .clear
    else if ctrlOp v = 0x1 then .instr .filter
    else .reserved v
  else .reserved v

/-- The operation code of a command (R71). -/
def opcode : Instr → BitVec 4
  | .clear => 0x0
  | .filter => 0x1

/-- The command word of an instruction: RSVD = 0 above OP (R70, R71). -/
def encode (i : Instr) : Reg32 := (0 : BitVec 28) ++ opcode i

/-- The decoder on the host's numbering of a table row. A command is one 32-bit bus value (R70), so bit `n` of `w`
is bit `n` of the value written to CTRL. A reserved value is no row of the table: `none`. -/
def decodeTableWord (_nbits w : Nat) : Option Instr :=
  if w < 2 ^ 32 then
    match decodeCtrl (BitVec.ofNat 32 w) with
    | .instr i => some i
    | .reserved _ => none
  else none

/-- The register at an offset of the window. `none` at the reserved offsets 0x4C to 0xFF and at an offset that is no
multiple of 4 (R23, R35). -/
def decodeOffset (o : Offset) : Option Machine.Reg :=
  match o.toNat with
  | 0x00 => some .ctrl
  | 0x04 => some .status
  | 0x08 => some (.op .width)
  | 0x0C => some (.op .height)
  | 0x10 => some (.op .channels)
  | 0x14 => some (.op .divisor)
  | 0x18 => some (.op (.weight 0))
  | 0x1C => some (.op (.weight 1))
  | 0x20 => some (.op (.weight 2))
  | 0x24 => some (.op (.weight 3))
  | 0x28 => some (.op (.weight 4))
  | 0x2C => some (.op (.weight 5))
  | 0x30 => some (.op (.weight 6))
  | 0x34 => some (.op (.weight 7))
  | 0x38 => some (.op (.weight 8))
  | 0x3C => some (.op .inBase)
  | 0x40 => some (.op .inWords)
  | 0x44 => some (.op .outBase)
  | 0x48 => some (.op .outWords)
  | _ => none

/-- The bus address of an offset of the window (R83: `REG_BASE + offset(REG)`). -/
def regAddress (o : Offset) : Nat := Config.regBase + o.toNat

/-- The offset of a bus address in the 256-byte window at `base`; what lies outside is the platform's (R35, R67). -/
def windowOffset (base addr : Nat) : Option Offset :=
  if base ≤ addr ∧ addr < base + 256 then some (BitVec.ofNat 8 (addr - base)) else none

/-- The register a host access of `size` bytes at an offset reaches. `none` is the bad access of R35: not 32 bits wide,
not at a multiple of 4, or at a reserved offset. -/
def decodeAccess (o : Offset) (size : Nat) : Option Machine.Reg :=
  if size = 4 then decodeOffset o else none

/-- How a host decodes a STATUS value: `STATE = s[1:0]`, `ERR = s[7:4]` (R74). A value outside R73's table is never read,
and is refused here. -/
def decodeStatus (s : Reg32) : Option (Machine.BlockState × Machine.ErrCode) :=
  match s.toNat with
  | 0x00 => some (.idle, .none)
  | 0x01 => some (.busy, .none)
  | 0x02 => some (.done, .none)
  | 0x13 => some (.error, .shape)
  | 0x23 => some (.error, .config)
  | 0x33 => some (.error, .illegal)
  | _ => none

end Sys2Proof
end

