-- ==== Sys2Proof/Machine/Commands.lean ====
section
/-! DEFINITION. The meanings of the commands written to CTRL (42_commands.md): CLEAR (R151), FILTER accepted (R152) and a
reserved value accepted (R157). What a FILTER does after its acceptance are the block's steps, Machine/Block.lean. -/

namespace Sys2Proof.Machine

/-- CLEAR (R151): STATE = IDLE, ERR = NONE, job = none; nothing else changes. Written while BUSY it is `F_BUSY_WRITE`. -/
def execClear (s : State) : Host.Outcome State Fault Refusal :=
  unlessBusy s (.next { s with state := .idle, err := .none, job := .none })

/-- FILTER, the host's step (R152): STATE = BUSY, ERR = NONE, job = pending(FILTER), from IDLE, DONE or ERROR alike; no
operand register is read. Written while BUSY it is `F_BUSY_WRITE`. -/
def execFilter (s : State) : Host.Outcome State Fault Refusal :=
  unlessBusy s (.next (s.accept .filter))

/-- A reserved value, the host's step (R157): STATE = BUSY, ERR = NONE, job = pending(RESERVED(v)). -/
def execReserved (v : Reg32) (s : State) : Host.Outcome State Fault Refusal :=
  unlessBusy s (.next (s.accept (.reserved v)))

end Sys2Proof.Machine
end

