-- ==== Sys2Proof/Machine/Flags.lean ====
section
/-! DEFINITION. The STATUS word, the only record of an outcome (10_state.md R22, R25; 30_encoding.md R73). The block has no
condition codes and no overflow or saturation flag (R22, R126). -/

namespace Sys2Proof.Machine

/-- `{24'b0, ERR[3:0], 2'b00, STATE[1:0]}` (R73). -/
def statusWord (st : BlockState) (e : ErrCode) : Reg32 := (0 : BitVec 24) ++ e.bits ++ (0 : BitVec 2) ++ st.bits

/-- The value a host read of STATUS returns (R25, R73). -/
def State.status (s : State) : Reg32 := statusWord s.state s.err

end Sys2Proof.Machine
end

