-- ==== Sys2Proof/Machine/HostAgent.lean ====
section
/-! DEFINITION. The host's steps (42_commands.md R158): register writes and reads (10_state.md R34), data memory writes and
reads (20_memory.md R62 to R64), and the lines of a host program (30_encoding.md R83, R84). -/

namespace Sys2Proof.Machine

/-- A write of `v` to CTRL when STATE ≠ BUSY: decode and run the command (R150). -/
def runCtrl (v : Reg32) (s : State) : Host.Outcome State Fault Refusal :=
  match decodeCtrl v with
  | .instr i => exec i s
  | .reserved u => execReserved u s

/-- The effect of a 32-bit write to a register when STATE ≠ BUSY (R34): CTRL runs a command, STATUS ignores it, an operand
register holds the value. -/
def writeReg (r : Reg) (v : Reg32) (s : State) : Host.Outcome State Fault Refusal :=
  match r with
  | .ctrl => runCtrl v s
  | .status => .next s
  | .op o => .next { s with regs := s.regs.set o v }

/-- A host write to the register window (R34). While BUSY it is `F_BUSY_WRITE` at any offset (R161); that this goes before
`F_BAD_ACCESS` (R35) is DEDUCED (log 9), safe. -/
def hostWrite (off : Offset) (size : Nat) (v : Reg32) (s : State) : Host.Outcome State Fault Refusal :=
  unlessBusy s
    (match decodeAccess off size with
    | none => .fault .badAccess
    | some r => writeReg r v s)

/-- The value a read of a register returns; none for an unwritten one (R24, R25, R33, R34). -/
def readReg (s : State) : Reg → Option Reg32
  | .ctrl => some 0
  | .status => some s.status
  | .op o => s.regs.get o

/-- Recording the value a host read returned (R83). -/
def State.sawValue (s : State) (v : HostRead) : State := { s with reads := v :: s.reads }

/-- A host read of the register window (R34, R35): no side effect, allowed at any STATE. -/
def hostRead (off : Offset) (size : Nat) (s : State) : Host.Outcome State Fault Refusal :=
  match decodeAccess off size with
  | none => .fault .badAccess
  | some r =>
    match readReg s r with
    | none => .fault .unwritten
    | some v => .next (s.sawValue (.reg v))

/-- A host write of data memory: `k` is its effect (R64, R196). Writing a used word while BUSY is `F_BUSY_MEM`; a word
that data memory does not have is a fault of the model's own, DESIGN CHOICE (log 11), safe. -/
def hostMemGuard (a : Nat) (s : State) (k : Host.Outcome State Fault Refusal) : Host.Outcome State Fault Refusal :=
  if s.state = .busy ∧ s.usesWord a = true then .fault .busyMem
  else if s.hasWord a = true then k
  else .fault .noSuchWord

/-- A host write of data word `a` (R83). -/
def hostMemWrite (a : Nat) (v : PackedWord) (s : State) : Host.Outcome State Fault Refusal :=
  hostMemGuard a s (.next { s with mem := s.mem.writeWord a v })

/-- A host write of one byte of data word `a` (R53). -/
def hostByteWrite (a k : Nat) (v : Byte) (s : State) : Host.Outcome State Fault Refusal :=
  hostMemGuard a s (.next { s with mem := s.mem.writeByte (byteNumber a k) v })

/-- The position of word `a` in the used output range, if it is in it (R51). -/
def State.outputIndex (s : State) (a : Nat) : Option Nat :=
  s.regs.outBase.bind fun b => if s.regs.inUsedRange s.regs.outBase a = true then some (a - b.toNat) else none

/-- The final and the old contents of the used output words of the FILTER in progress (R64). Before validation they are
those that a validation now would compute; a command that will not write has none. -/
def State.earlyWords (s : State) : Option (List PackedWord × List PackedWord) :=
  match s.job with
  | .none => none
  | .pending (.reserved _) => none
  | .pending .filter =>
    match s.verdict with
    | .unwritten => none
    | .error _ => none
    | .overlap => none
    | .stuck => none
    | .go d => some (d.result s.mem, s.mem.readWords d.ob d.wordCount)
  | .writing result _ old => some (result, old)

/-- What the host sees in data word `a`. While BUSY a used output word shows its final value or its old one, as the free
draw `seesNew` says (R64); every other word shows its contents. -/
def State.hostView (s : State) (seesNew : Bool) (a : Nat) : PackedWord :=
  match s.earlyWords with
  | none => s.mem.readWord a
  | some (result, old) =>
    match s.outputIndex a with
    | none => s.mem.readWord a
    | some j => (if seesNew then result[j]? else old[j]?).getD (s.mem.readWord a)

/-- A host read of data word `a` (R83): no side effect. -/
def hostMemRead (a : Nat) (seesNew : Bool) (s : State) : Host.Outcome State Fault Refusal :=
  if s.hasWord a = true then .next (s.sawValue (.word (s.hostView seesNew a))) else .fault .noSuchWord

/-- A host read of one byte of data word `a` (R53). -/
def hostByteRead (a k : Nat) (seesNew : Bool) (s : State) : Host.Outcome State Fault Refusal :=
  if s.hasWord a = true then .next (s.sawValue (.byte (lane (s.hostView seesNew a) k))) else .fault .noSuchWord

/-- A WRF line (R84): the write of the decimal's binary32 pattern, refused where there is none (R178, U22). -/
def hostWriteFloat (off : Offset) (d : Decimal) (s : State) : Host.Outcome State Fault Refusal :=
  match f32ofDecimal d with
  | none => .refused .wrfNotRepresentable
  | some b => hostWrite off 4 b s

/-- A POLL line (R84): one read of STATUS; the line stays in the program while STATE = BUSY. `s` is the state with the line
taken out of the program. -/
def hostPoll (s : State) : Host.Outcome State Fault Refusal :=
  .next { s.sawValue (.reg s.status) with prog := if s.state = .busy then .poll :: s.prog else s.prog }

/-- One line of the host's program; `s` is the state with the line taken out of the program. -/
def runLine (l : HostLine) (seesNew : Bool) (s : State) : Host.Outcome State Fault Refusal :=
  match l with
  | .wr off size v => hostWrite off size v s
  | .rd off size => hostRead off size s
  | .wrf off d => hostWriteFloat off d s
  | .memw a v => hostMemWrite a.toNat v s
  | .memr a => hostMemRead a.toNat seesNew s
  | .memwb a k v => hostByteWrite a.toNat k.val v s
  | .memrb a k => hostByteRead a.toNat k.val seesNew s
  | .poll => hostPoll s

/-- The host's step: its next line, or an idle step when its program is at its end (R158). -/
def hostStep (seesNew : Bool) (s : State) : Host.Outcome State Fault Refusal :=
  match s.prog with
  | [] => .next s
  | l :: rest => runLine l seesNew { s with prog := rest }

end Sys2Proof.Machine
end

