-- ==== Sys2Proof/Machine/Turns.lean ====
section
/-! DEFINITION. The interleaving (42_commands.md R159): whose turn it is, and what a turn does. -/

namespace Sys2Proof.Machine

/-- The eager schedule, used when `turns` is used up: the block moves while it has a step, then the host (the "eager
schedule" of 95_test_vectors.md Part 3). DESIGN CHOICE (log 5), unsafe for a claim about a state with no turns listed. -/
def State.eagerTurn (s : State) : Turn := if s.blockEnabled = true then .block 0 else .host false

/-- The turn a step takes: the first one listed. Listing turns admits every interleaving (R159). -/
def State.turn (s : State) : Turn :=
  match s.turns with
  | [] => s.eagerTurn
  | t :: _ => t

/-- The state with its first listed turn used up. -/
def State.dropTurn (s : State) : State := { s with turns := s.turns.tail }

/-- What a turn does (R158, R190). -/
def runTurn (t : Turn) (s : State) : Host.Outcome State Fault Refusal :=
  match t with
  | .host seesNew => hostStep seesNew s
  | .idle => .next s
  | .block pick => blockStep pick s
  | .reset => .next s.resetBlock

/-- A state with a mark stays stopped (R178): the mark is what the step answers. -/
def unlessMarked (s : State) (k : Host.Outcome State Fault Refusal) : Host.Outcome State Fault Refusal :=
  match s.faultMark, s.refusalMark with
  | some f, _ => .fault f
  | none, some r => .refused r
  | none, none => k

/-- The host's line that writes the command word `v` to CTRL (R83). -/
def ctrlLine (v : Reg32) : HostLine := .wr 0x00 4 v

end Sys2Proof.Machine
end

