-- ==== Sys2Proof/Machine/Step.lean ====
section
/-! DEFINITION. One step of the machine (42_commands.md R158, R159), the marking of a run (60_exceptions.md R178), and the
placing of a command so that the next step runs it. -/

namespace Sys2Proof.Machine

/-- One step: a marked state stays stopped; otherwise the agent whose turn it is moves. -/
def step (s : State) : Host.Outcome State Fault Refusal :=
  unlessMarked s (runTurn s.turn s.dropTurn)

/-- One step of a run in which a stop is recorded by its sticky mark (R178). -/
def advance (s : State) : State := s.marked (step s)

/-- `s` with the host about to write the command word `w` to CTRL: the line stands first in its program, and the host has
the next turn (log 6). -/
def State.withFetchWord (s : State) (_nbits w : Nat) : State :=
  { s with prog := ctrlLine (BitVec.ofNat 32 w) :: s.prog, turns := .host false :: s.turns }

end Sys2Proof.Machine
end

