-- ==== Sys2Proof/WellFormed.lean ====
section
/-! DEFINITION. Well-formedness of instructions and of the host's lines (30_encoding.md R70, R83, R84). -/

namespace Sys2Proof

/-- A command has no operand field (R70), so every instruction is well formed; the checks are on its word. -/
def Instr.wellFormed (i : Instr) : Bool := ctrlRsvd (encode i) == 0 && (ctrlOp (encode i)).toNat < 2

/-- A host line in the notation of R83 and R84: a register access is 32 bits wide and names a register, a data access
names a word that exists, a WRF decimal has a binary32 pattern. -/
def Machine.HostLine.wellFormed (memWords : Nat) : Machine.HostLine → Bool
  | .wr off size _ => (decodeAccess off size).isSome
  | .rd off size => (decodeAccess off size).isSome
  | .wrf off d => (decodeAccess off 4).isSome && (Machine.f32ofDecimal d).isSome
  | .memw a _ => decide (a.toNat < memWords)
  | .memr a => decide (a.toNat < memWords)
  | .memwb a _ _ => decide (a.toNat < memWords)
  | .memrb a _ => decide (a.toNat < memWords)
  | .poll => true

end Sys2Proof
end

