-- ==== Sys2Proof/Safety.lean ====
section
/-! DEFINITION. What counts as a legal state and as the end of a run: the invariant of the machine (10_state.md R26, R27,
R37; 20_memory.md R50, R58, R60), final states (42_commands.md R164), and the words of a run. -/

namespace Sys2Proof.Machine

/-- No mark is set (R39, R178). -/
def State.unmarked (s : State) : Bool := s.faultMark.isNone && s.refusalMark.isNone

/-- A run is at its end (R164): the host's program is used up, STATE ≠ BUSY, and no mark is set. -/
def State.final (s : State) : Bool := s.prog.isEmpty && decide (s.state ≠ .busy) && s.unmarked

/-- The register a line of the host's program writes, if it is a write to the register window (R83, R84). -/
def HostLine.target : HostLine → Option Reg
  | .wr off size _ => decodeAccess off size
  | .rd _ _ => none
  | .wrf off _ => decodeAccess off 4
  | .memw _ _ => none
  | .memr _ => none
  | .memwb _ _ _ => none
  | .memrb _ _ => none
  | .poll => none

/-- The next step writes operand register `r` from the host's program, or resets the block: the two things that can change
its contents (R33). -/
def State.mayWrite (s : State) (r : OpReg) : Prop :=
  s.turn = .reset ∨ ∃ seesNew l, s.turn = .host seesNew ∧ s.prog.head? = some l ∧ l.target = some (.op r)

/-- What a job that is writing means (R37, R58, R60, R64, R154): it passed validation with the registers as they are; its
result is FILTERWORDS of the input words as they are; an output word holds its result or its old value, according to
whether it is still to be written. -/
structure State.WritingOk (s : State) (result : List PackedWord) (todo : List Nat) (old : List PackedWord)
    (d : Descriptor) : Prop where
  verdict : s.verdict = .go d
  result_eq : result = d.result s.mem
  old_length : old.length = d.wordCount
  todo_nodup : todo.Nodup
  todo_lt : ∀ j ∈ todo, j < d.wordCount
  written : ∀ j < d.wordCount, j ∉ todo → some (s.mem.readWord (d.ob + j)) = result[j]?
  unwritten : ∀ j ∈ todo, some (s.mem.readWord (d.ob + j)) = old[j]?

/-- What the job record must satisfy (R37). -/
def State.JobOk (s : State) : Prop :=
  match s.job with
  | .none => True
  | .pending _ => True
  | .writing result todo old => ∃ d, s.WritingOk result todo old d

/-- The invariant of the machine. -/
structure State.Inv (s : State) : Prop where
  /-- BUSY is when a job is in progress (R37). -/
  busy_iff : s.state = .busy ↔ s.job ≠ .none
  /-- An error code is held in ERROR and only there (R27). -/
  err_iff : s.err ≠ .none ↔ s.state = .error
  /-- Data memory is in its canonical form. -/
  mem_wf : s.mem.wf
  /-- Data memory holds no byte past `MEM_WORDS` (R50). -/
  mem_bound : ∀ c ∈ s.mem, c.1 < byteNumber s.memWords.val 0
  /-- The job record fits the registers and data memory. -/
  job_ok : s.JobOk

end Sys2Proof.Machine
end

