-- ==== Sys2Proof/Certificates/Slice0/Obligations.lean ====
section
/-! DEFINITION. The statements about the machine. Each docstring names the rule of the spec it formalises. -/

open Sys2Proof Sys2Proof.Machine

/-! Reset and the invariant. -/

/-- R39, and the launch of R190: the value of every piece of state at the start of a launch, on whatever data memory the
platform gives, and what a reset during a run does. `State.reset` is one of these launches (that it is the one on a memory with
nothing listed is the model's own choice, log 2, and is not claimed here). -/
def Obligations.ResetLeavesSpecValues : Prop :=
  (∀ m : Memory, (State.launch m).state = .idle ∧ (State.launch m).err = .none ∧ (State.launch m).status = 0 ∧
    readReg (State.launch m) .ctrl = some 0 ∧ (∀ r, (State.launch m).regs.get r = none) ∧ (State.launch m).job = .none ∧
    (State.launch m).mem = m ∧ (State.launch m).faultMark = none ∧ (State.launch m).refusalMark = none) ∧
  (∃ m : Memory, State.reset = State.launch m) ∧
  ∀ (s : State) (ts : List Turn), s.turns = .reset :: ts →
    (s.unmarked = true → ∃ t, step s = .next t ∧ t.state = .idle ∧ t.err = .none ∧ t.status = 0 ∧
      readReg t .ctrl = some 0 ∧ (∀ r, t.regs.get r = none) ∧ t.job = .none ∧ t.mem = s.mem ∧ t.unmarked = true) ∧
    (∀ f, s.faultMark = some f → (advance s).faultMark = some f) ∧
    (∀ r, s.refusalMark = some r → (advance s).refusalMark = some r)

/-- R190, U8: the power-on contents of data memory are an unconstrained launch input. Whatever byte each byte number below
MEM_WORDS holds, there is a launch on that memory, and it has the invariant. (That contents are written down as a list, log 2,
is the model's own.) -/
def Obligations.LaunchMemoryIsUnconstrained : Prop :=
  ∀ contents : Nat → Byte, ∃ m : Memory, (State.launch m).Inv ∧
    ∀ a < byteNumber (State.launch m).memWords.val 0, (State.launch m).mem.readByte a = contents a

/-- R191: a reset while the block writes. The words written so far keep their results, the others their old values. (That the
job records the old values is the model's own, log 8.) -/
def Obligations.ResetWhileWritingKeepsEachWord : Prop :=
  ∀ (s : State) (d : Descriptor) (R : List PackedWord) (todo : List Nat) (old : List PackedWord) (ts : List Turn),
    s.Inv → s.unmarked = true → s.turns = .reset :: ts → s.job = .writing R todo old → s.verdict = .go d →
    ∃ t, step s = .next t ∧ t.status = 0 ∧ t.job = .none ∧
      (∀ j < d.wordCount, some (t.mem.readWord (d.ob + j)) = if j ∈ todo then old[j]? else R[j]?) ∧
      ∀ a, t.mem.readByte a = s.mem.readByte a

/-- The invariant of the machine (R27, R37, R50, R58, R60) holds right after reset, and at the start of every launch on a
canonical data memory of MEM_WORDS words. -/
def Obligations.InvariantHoldsAtReset : Prop :=
  State.reset.Inv ∧
  ∀ m : Memory, m.wf → (∀ c ∈ m, c.1 < byteNumber (State.launch m).memWords.val 0) → (State.launch m).Inv

/-- The invariant of the machine is kept by every step, from every state that has it. -/
def Obligations.StepKeepsInvariant : Prop :=
  ∀ s t : State, s.Inv → step s = .next t → t.Inv ∧ t.memWords = s.memWords

/-! Encodings. -/

/-- R82: the CTRL decoder is total and has three verdicts. -/
def Obligations.DecodeCtrlVerdicts : Prop :=
  ∀ v : Reg32, decodeCtrl v =
    if v = 0x00000000 then .instr .clear else if v = 0x00000001 then .instr .filter else .reserved v

/-- The command words of the spec's vectors V-ENC-1 to V-ENC-4 and of the opcode table decode as the spec says. -/
def Obligations.SpecCommandWordsDecode : Prop :=
  decodeCtrl 0x00000000 = .instr .clear ∧ decodeCtrl 0x00000001 = .instr .filter ∧
  (∀ v ∈ [0x00000002, 0x0000000F, 0x00000010, 0x00000011, 0x80000001, (0xFFFFFFFF : Reg32)], decodeCtrl v = .reserved v) ∧
  decodeTableWord 32 0 = some .clear ∧ decodeTableWord 32 1 = some .filter ∧ decodeTableWord 32 2 = none

/-- R70, R71: every instruction's command word decodes to it, and no other value does. -/
def Obligations.CommandEncodingRoundTrip : Prop :=
  ∀ (i : Instr) (v : Reg32), (decodeCtrl v = .instr i ↔ v = encode i) ∧ ctrlRsvd (encode i) = 0 ∧
    ctrlOp (encode i) = opcode i ∧ decodeTableWord 32 (encode i).toNat = some i

/-- R23, R35: the register map is one to one, and an access reaches no register exactly when it is not 32 bits wide, not at
a multiple of 4, or at a reserved offset. -/
def Obligations.RegisterMapRoundTrip : Prop :=
  (∀ (o : Offset) (r : Reg), decodeOffset o = some r ↔ r.offset = o) ∧
  (∀ (o : Offset) (size : Nat), decodeAccess o size = none ↔ size ≠ 4 ∨ o.toNat % 4 ≠ 0 ∨ 0x4C ≤ o.toNat) ∧
  ∀ o : Offset, windowOffset Config.regBase (regAddress o) = some o

/-- R73, R74: the value a read of STATUS returns, the six values that are read and no other, and their decoding. -/
def Obligations.StatusReadsTheTable : Prop :=
  ∀ s : State, s.Inv →
    readReg s .status = some ((0 : BitVec 24) ++ s.err.bits ++ (0 : BitVec 2) ++ s.state.bits) ∧
    (s.state = .idle → s.status = 0x00000000) ∧ (s.state = .busy → s.status = 0x00000001) ∧
    (s.state = .done → s.status = 0x00000002) ∧
    (s.state = .error → s.err = .shape → s.status = 0x00000013) ∧
    (s.state = .error → s.err = .config → s.status = 0x00000023) ∧
    (s.state = .error → s.err = .illegal → s.status = 0x00000033) ∧
    s.status ∈ [0x00000000, 0x00000001, 0x00000002, 0x00000013, 0x00000023, (0x00000033 : Reg32)] ∧
    decodeStatus s.status = some (s.state, s.err)

/-- R76: the exact value of every finite binary32 pattern, from its three fields. -/
def Obligations.Binary32Value : Prop :=
  ∀ (b : Reg32) (s : Bool) (e f : Nat), b = f32pack s e f → e < 255 → f < 2 ^ 23 →
    (f32sign b = s ∧ f32exp b = e ∧ f32frac b = f) ∧
    (e = 0 → f32val b = (if s then -1 else 1) * f / 2 ^ 149) ∧
    (1 ≤ e → f32val b * 2 ^ 150 = (if s then -1 else 1) * (2 ^ 23 + f) * 2 ^ e) ∧
    f32val 0x00000000 = 0 ∧ f32val 0x80000000 = 0

/-- R77: a finite pattern has the value 0 exactly when `iszero` holds of it, so that a divisor that passes validation can be
divided by (R120). -/
def Obligations.FiniteValueIsZeroOnlyForZeros : Prop :=
  ∀ b : Reg32, f32finite b = true → (f32val b = 0 ↔ f32isZero b = true)

/-- Decode and encode agree on binary32 patterns (R75, R76): from the value of a finite pattern the encoder recovers its
exponent and fraction, and packing its three fields gives the pattern back. -/
def Obligations.Binary32RoundTrip : Prop :=
  ∀ b : Reg32, f32finite b = true →
    (|f32val b| * 2 ^ 149).den = 1 ∧
    f32fields (|f32val b| * 2 ^ 149).num.toNat = some (f32exp b, f32frac b) ∧
    f32pack (f32sign b) (f32exp b) (f32frac b) = b

/-- R84: the pattern a WRF line writes is finite and has exactly the value of its decimal; and a decimal that is the value of
a finite pattern has a pattern. -/
def Obligations.DecimalPatternIsExact : Prop :=
  (∀ (d : Decimal) (b : Reg32), f32ofDecimal d = some b → f32finite b = true ∧ f32val b = d.value) ∧
  ∀ (d : Decimal) (b : Reg32), f32finite b = true → f32val b = d.value → (f32ofDecimal d).isSome = true

/-! The step and the commands. -/

/-- When the host's next line writes to CTRL a word that decodes to an instruction, and the host has the turn, the step is
the instruction's meaning, on the state with the line and the turn used up. Placing a command word makes it the next. -/
def Obligations.StepRunsDecodedCommand : Prop :=
  (∀ (s : State) (i : Instr) (v : Reg32) (seesNew : Bool) (ps : List HostLine) (ts : List Turn),
    s.unmarked = true → s.turns = .host seesNew :: ts → s.prog = ctrlLine v :: ps → decodeCtrl v = .instr i →
    step s = exec i { s with prog := ps, turns := ts }) ∧
  ∀ (s : State) (i : Instr) (nbits : Nat), s.unmarked = true →
    step (s.withFetchWord nbits (encode i).toNat) = exec i s

/-- R159: any move of either agent may be the next one. -/
def Obligations.AnyTurnMayBeNext : Prop :=
  ∀ (s : State) (u : Turn) (ts : List Turn), s.unmarked = true →
    step { s with turns := u :: ts } = runTurn u { s with turns := ts }

/-- R158: a turn in which nothing moves leaves the state as it is, but for the turn used up: the host's idle step, and the
host's turn with its program used up. That a turn of the block with no job does so too is the model's own, DEDUCED (log 13; R158
says that the block then has no step). -/
def Obligations.IdleTurnsChangeNothing : Prop :=
  ∀ (s : State) (ts : List Turn), s.unmarked = true →
    (s.turns = .idle :: ts → step s = .next { s with turns := ts }) ∧
    (∀ seesNew : Bool, s.turns = .host seesNew :: ts → s.prog = [] → step s = .next { s with turns := ts }) ∧
    ∀ pick : Nat, s.turns = .block pick :: ts → s.job = .none → step s = .next { s with turns := ts }

/-- R151: CLEAR. Its whole effect, its fault, and that from IDLE it changes nothing. -/
def Obligations.ClearEffect : Prop :=
  ∀ s : State,
    (s.state ≠ .busy → exec .clear s = .next { s with state := .idle, err := .none, job := .none }) ∧
    (s.state = .busy → exec .clear s = .fault .busyWrite) ∧
    (s.Inv → s.state = .idle → exec .clear s = .next s)

/-- R152: FILTER, accept. From IDLE, DONE and ERROR alike, whatever the operand registers hold; and every later step of the
command, but for a reset, is a step of the block. -/
def Obligations.FilterAcceptEffect : Prop :=
  (∀ s : State, s.state ≠ .busy →
    exec .filter s = .next { s with state := .busy, err := .none, job := .pending .filter } ∧
    ∀ (seesNew : Bool) (ps : List HostLine) (ts : List Turn), s.unmarked = true → s.turns = .host seesNew :: ts →
      s.prog = ctrlLine 0x00000001 :: ps →
      step s = .next { s with state := .busy, err := .none, job := .pending .filter, prog := ps, turns := ts }) ∧
  ∀ s t : State, s.state = .busy → step s = .next t → (t.job ≠ s.job ∨ t.state ≠ s.state ∨ t.err ≠ s.err) →
    s.turn = .reset ∨ ∃ pick, s.turn = .block pick

/-- The frame of CLEAR and of FILTER's acceptance (R151, R152), register only and storing nothing: every operand register,
every byte of memory and everything outside STATUS and the job is unchanged. -/
def Obligations.CommandFrame : Prop :=
  ∀ (i : Instr) (s t : State), exec i s = .next t →
    (∀ r, t.regs.get r = s.regs.get r) ∧ (∀ a, t.mem.readByte a = s.mem.readByte a) ∧ t.mem = s.mem ∧
    t.faultMark = s.faultMark ∧ t.refusalMark = s.refusalMark ∧ t.memWords = s.memWords ∧
    t.prog = s.prog ∧ t.reads = s.reads ∧ t.turns = s.turns

/-- R157: a reserved command, accepted by the host's step and ended by the block's step, in any state of the operand
registers; nothing else changes, data memory included. -/
def Obligations.ReservedCommandEndsIllegal : Prop :=
  (∀ (s : State) (v : Reg32) (seesNew : Bool) (ps : List HostLine) (ts : List Turn), s.unmarked = true →
    s.state ≠ .busy → v ≠ 0x00000000 → v ≠ 0x00000001 → s.turns = .host seesNew :: ts → s.prog = ctrlLine v :: ps →
    step s = .next { s with state := .busy, err := .none, job := .pending (.reserved v), prog := ps, turns := ts }) ∧
  ∀ (s : State) (v : Reg32) (pick : Nat) (ts : List Turn), s.unmarked = true → s.job = .pending (.reserved v) →
    s.turns = .block pick :: ts → step s = .next { s with state := .error, err := .illegal, job := .none, turns := ts }

/-- R161: any host write to the register window while STATE = BUSY is the fault F_BUSY_WRITE, at every offset, and the fault
is sticky. Two clauses are the model's own: that F_BUSY_WRITE goes before F_BAD_ACCESS at a reserved offset or another size is
DEDUCED (log 9), and that a marked state answers its fault at every later step is DESIGN CHOICE (log 7; R178 says that the mark
stays and the state is never final). -/
def Obligations.BusyRegisterWriteFaults : Prop :=
  ∀ (s : State) (off : Offset) (size : Nat) (v : Reg32) (seesNew : Bool) (ps : List HostLine) (ts : List Turn),
    s.unmarked = true → s.state = .busy → s.turns = .host seesNew :: ts → s.prog = .wr off size v :: ps →
    step s = .fault .busyWrite ∧ (advance s).faultMark = some .busyWrite ∧
    ∀ us : List Turn, step { advance s with turns := us } = .fault .busyWrite

/-- R35: a bad access. A read is `F_BAD_ACCESS` at any STATE; a write is so when STATE ≠ BUSY. (That a write while BUSY is
F_BUSY_WRITE even at a reserved offset is R161 and log 9.) -/
def Obligations.BadAccessFaults : Prop :=
  ∀ (s : State) (off : Offset) (size : Nat) (seesNew : Bool) (ps : List HostLine) (ts : List Turn),
    s.unmarked = true → s.turns = .host seesNew :: ts → (size ≠ 4 ∨ off.toNat % 4 ≠ 0 ∨ 0x4C ≤ off.toNat) →
    (s.prog = .rd off size :: ps → step s = .fault .badAccess) ∧
    ∀ v : Reg32, s.state ≠ .busy → s.prog = .wr off size v :: ps → step s = .fault .badAccess

/-- R34: the table of register read and write effects, row by row, with everything else unchanged. -/
def Obligations.RegisterAccessEffects : Prop :=
  ∀ (s : State) (seesNew : Bool) (ps : List HostLine) (ts : List Turn), s.unmarked = true → s.turns = .host seesNew :: ts →
    (∀ (r : OpReg) (v : Reg32), s.state ≠ .busy → s.prog = .wr (Reg.op r).offset 4 v :: ps →
      step s = .next { s with regs := s.regs.set r v, prog := ps, turns := ts } ∧
      (s.regs.set r v).get r = some v ∧ ∀ q, q ≠ r → (s.regs.set r v).get q = s.regs.get q) ∧
    (∀ (r : Reg) (v : Reg32), s.state = .busy → s.prog = .wr r.offset 4 v :: ps → step s = .fault .busyWrite) ∧
    (∀ v : Reg32, s.state ≠ .busy → s.prog = .wr Reg.status.offset 4 v :: ps →
      step s = .next { s with prog := ps, turns := ts }) ∧
    (∀ (r : OpReg) (v : Reg32), s.regs.get r = some v → s.prog = .rd (Reg.op r).offset 4 :: ps →
      step s = .next { s with reads := .reg v :: s.reads, prog := ps, turns := ts }) ∧
    (∀ r : OpReg, s.regs.get r = none → s.prog = .rd (Reg.op r).offset 4 :: ps → step s = .fault .unwritten) ∧
    (s.prog = .rd Reg.ctrl.offset 4 :: ps →
      step s = .next { s with reads := .reg 0 :: s.reads, prog := ps, turns := ts }) ∧
    (s.prog = .rd Reg.status.offset 4 :: ps →
      step s = .next { s with reads := .reg s.status :: s.reads, prog := ps, turns := ts })

/-- R33: an operand register is unwritten from reset until its first host write; reading it, or validating a FILTER while
any is unwritten, is F_UNWRITTEN; and once written it keeps its value until the next host write or reset. -/
def Obligations.RegistersHoldWhatWasWritten : Prop :=
  (∀ (s : State) (r : OpReg), s.resetBlock.regs.get r = none) ∧
  (∀ (s t : State) (r : OpReg), step s = .next t → ¬ s.mayWrite r → t.regs.get r = s.regs.get r) ∧
  (∀ (s : State) (r : OpReg) (seesNew : Bool) (ps : List HostLine) (ts : List Turn), s.unmarked = true →
    s.turns = .host seesNew :: ts → s.prog = .rd (Reg.op r).offset 4 :: ps → s.regs.get r = none →
    step s = .fault .unwritten) ∧
  ∀ (s : State) (pick : Nat) (ts : List Turn), s.unmarked = true → s.turns = .block pick :: ts →
    s.job = .pending .filter → ((∃ r, s.regs.get r = none) ↔ step s = .fault .unwritten)

/-! The validation step. -/

/-- R78, R79, R80, R81: the job descriptor is read from the operand registers, dimensions signed, addresses and counts
unsigned. -/
def Obligations.DescriptorReadsRegisters : Prop :=
  ∀ (r : Regs) (d : Descriptor), r.descriptor = some d ↔
    (∃ w h c, r.get .width = some w ∧ r.get .height = some h ∧ r.get .channels = some c ∧
      d.W = w.toInt ∧ d.H = h.toInt ∧ d.C = c.toInt) ∧
    r.get .divisor = some d.d ∧ (∀ k : Fin 9, r.get (.weight k) = some d.w[k.val]) ∧
    ∃ ib iw ob ow, r.get .inBase = some ib ∧ r.get .inWords = some iw ∧ r.get .outBase = some ob ∧
      r.get .outWords = some ow ∧ d.ib = ib.toNat ∧ d.iw = iw.toNat ∧ d.ob = ob.toNat ∧ d.ow = ow.toNat

/-- R171, R172, R175: which architectural error a FILTER ends with, SHAPE_ERROR before CONFIG_ERROR (R174), and that nothing
but STATUS and the job changes. -/
def Obligations.ValidationReportsErrors : Prop :=
  ∀ (s : State) (d : Descriptor) (pick : Nat) (ts : List Turn), s.unmarked = true → s.turns = .block pick :: ts →
    s.job = .pending .filter → s.regs.descriptor = some d →
    ((d.W ≤ 0 ∨ d.H ≤ 0 ∨ d.C ≤ 0 ∨ (d.iw : Int) < (d.W * d.H * d.C + 15) / 16 ∨
        (d.ow : Int) < (d.W * d.H * d.C + 15) / 16) →
      step s = .next { s with state := .error, err := .shape, job := .none, turns := ts }) ∧
    (0 < d.W → 0 < d.H → 0 < d.C → (d.W * d.H * d.C + 15) / 16 ≤ d.iw → (d.W * d.H * d.C + 15) / 16 ≤ d.ow →
      (f32isZero d.d = true ∨ f32finite d.d = false ∨ ∃ k : Fin 9, f32finite d.w[k.val] = false) →
      step s = .next { s with state := .error, err := .config, job := .none, turns := ts })

/-- R61, R59, R179, R180: after every architectural check has passed, overlapping used ranges are F_OVERLAP, and a used range
past memory leaves the block with no step: STATE stays BUSY and the job pending. That a turn of the block then leaves the state
as it is, but for the turn used up, is the model's own, DEDUCED (log 13). -/
def Obligations.ValidationFaultsAndStuck : Prop :=
  ∀ (s : State) (d : Descriptor) (pick : Nat) (ts : List Turn), s.unmarked = true → s.turns = .block pick :: ts →
    s.job = .pending .filter → s.regs.descriptor = some d → d.archError = none →
    ((∃ i < d.wordCount, ∃ j < d.wordCount, d.ib + i = d.ob + j) → step s = .fault .overlap) ∧
    ((∀ i < d.wordCount, ∀ j < d.wordCount, d.ib + i ≠ d.ob + j) →
      (s.memWords.val < d.ib + d.wordCount ∨ s.memWords.val < d.ob + d.wordCount) →
      step s = .next { s with turns := ts })

/-- R153 part 4, R154: a validation that passes computes FILTERWORDS of the NW input words, and all NW words are to be
written; nothing else changes, data memory included. R153's job is writing(R, todo): that the job also records the output
words' contents at validation is the model's own, DESIGN CHOICE (log 8). -/
def Obligations.ValidationStartsWriting : Prop :=
  ∀ (s : State) (d : Descriptor) (pick : Nat) (ts : List Turn), s.unmarked = true → s.turns = .block pick :: ts →
    s.job = .pending .filter → s.regs.descriptor = some d → d.archError = none →
    (∀ i < d.wordCount, ∀ j < d.wordCount, d.ib + i ≠ d.ob + j) →
    d.ib + d.wordCount ≤ s.memWords.val → d.ob + d.wordCount ≤ s.memWords.val →
    step s = .next { s with
      turns := ts
      job := .writing
        (filterWords ((List.range d.wordCount).map fun j => s.mem.readWord (d.ib + j)) d.W.toNat d.H.toNat d.C.toNat d.w
          d.d)
        (List.range d.wordCount) ((List.range d.wordCount).map fun j => s.mem.readWord (d.ob + j)) }

/-- R179: a stuck command. Whatever step is taken next, unless it is a reset, STATE stays BUSY, the job stays pending and
the block stays stuck. -/
def Obligations.StuckUntilReset : Prop :=
  ∀ s t : State, s.state = .busy → s.job = .pending .filter → s.verdict = .stuck → step s = .next t → s.turn ≠ .reset →
    t.state = .busy ∧ t.job = .pending .filter ∧ t.verdict = .stuck

/-- R160: a command in progress cannot be cancelled. While STATE = BUSY only a step of the block or a reset changes STATE or
the job. -/
def Obligations.BusyEndsByBlockOrReset : Prop :=
  ∀ s t : State, s.state = .busy → step s = .next t → s.turn ≠ .reset → (∀ pick, s.turn ≠ .block pick) →
    t.state = .busy ∧ t.job = s.job ∧ t.regs = s.regs

/-- R26: the only ways STATE changes. -/
def Obligations.StateChangesOnlyAsListed : Prop :=
  ∀ s t : State, s.Inv → step s = .next t → t.state ≠ s.state →
    (s.turn = .reset ∧ t.state = .idle) ∨
    (s.state ≠ .busy ∧ ∃ n off v ps, s.turn = .host n ∧ decodeAccess off 4 = some .ctrl ∧
      (s.prog = .wr off 4 v :: ps ∨ ∃ d, s.prog = .wrf off d :: ps ∧ f32ofDecimal d = some v) ∧
      ((decodeCtrl v = .instr .clear ∧ t.state = .idle) ∨ (decodeCtrl v ≠ .instr .clear ∧ t.state = .busy))) ∨
    ((∃ pick, s.turn = .block pick) ∧ s.state = .busy ∧
      (((∃ c, s.job = .pending c) ∧ t.state = .error ∧ t.err ≠ .none) ∨
        ((∃ R old, s.job = .writing R [] old) ∧ t.state = .done)))

/-! The write and complete steps, whole commands. -/

/-- R155: a step of the block that writes. Any index still to be written can be the next one, and only indices still to be
written are; the step writes exactly the word `OB + j`. (The job's third part, the recorded old words, is the model's own, log 8.) -/
def Obligations.WriteStepWritesOneWord : Prop :=
  ∀ (s : State) (d : Descriptor) (R : List PackedWord) (todo : List Nat) (old : List PackedWord),
    s.Inv → s.unmarked = true → s.job = .writing R todo old → s.verdict = .go d → todo ≠ [] →
    (∀ j ∈ todo, ∃ pick, pickIndex todo pick = j) ∧
    ∀ (pick : Nat) (ts : List Turn), s.turns = .block pick :: ts →
      ∃ j ∈ todo, j = pickIndex todo pick ∧ ∃ v, R[j]? = some v ∧ ∃ m : Memory,
        step s = .next { s with mem := m, job := .writing R (todo.erase j) old, turns := ts } ∧
        m.readWord (d.ob + j) = v ∧
        ∀ a, ¬ (byteNumber (d.ob + j) 0 ≤ a ∧ a < byteNumber (d.ob + j) 16) → m.readByte a = s.mem.readByte a

/-- R156: FILTER, complete: DONE with ERR still NONE, and nothing else changes. -/
def Obligations.CompleteStepReportsDone : Prop :=
  ∀ (s : State) (R old : List PackedWord) (pick : Nat) (ts : List Turn), s.Inv → s.unmarked = true →
    s.turns = .block pick :: ts → s.job = .writing R [] old →
    step s = .next { s with state := .done, err := .none, job := .none, turns := ts }

/-- R57, R58, R60: the block writes no byte outside the used output range, and none at all unless it is writing. -/
def Obligations.BlockWritesOnlyUsedOutput : Prop :=
  ∀ (s t : State) (pick : Nat), s.Inv → s.turn = .block pick → step s = .next t →
    ((∀ R todo old, s.job ≠ .writing R todo old) → t.mem = s.mem) ∧
    ∀ d : Descriptor, s.regs.descriptor = some d →
      (∀ a, ¬ (byteNumber d.ob 0 ≤ a ∧ a < byteNumber (d.ob + d.wordCount) 0) → t.mem.readByte a = s.mem.readByte a) ∧
      (s.verdict = .go d → ∀ j < d.wordCount, t.mem.readWord (d.ib + j) = s.mem.readWord (d.ib + j))

/-- R63, R162: whenever STATE becomes DONE, every used output word in data memory is the result of the filter on the input
words in data memory, under any interleaving with host reads, idle steps and host writes to other words. -/
def Obligations.DoneMeansResultInMemory : Prop :=
  ∀ s t : State, s.Inv → step s = .next t → t.state = .done → s.state ≠ .done →
    ∃ d, t.regs.descriptor = some d ∧ d.archError = none ∧
      (List.range d.wordCount).map (fun j => t.mem.readWord (d.ob + j)) =
        filterWords ((List.range d.wordCount).map fun j => t.mem.readWord (d.ib + j)) d.W.toNat d.H.toNat d.C.toNat d.w d.d

/-- R162, R202: a whole FILTER, from the host's CTRL write on. When validation passes, one validate step, NW write steps in
whatever order and one complete step reach exactly the state of FILTER_ATOMIC; when it reports an error, one block step
does. -/
def Obligations.FilterRunEqualsAtomic : Prop :=
  ∀ (s : State) (d : Descriptor) (seesNew : Bool) (picks : List Nat) (ps : List HostLine) (ts : List Turn),
    s.Inv → s.unmarked = true → s.state ≠ .busy → s.prog = ctrlLine 0x00000001 :: ps →
    s.turns = .host seesNew :: (picks.map Turn.block ++ ts) → s.regs.descriptor = some d →
    (s.verdict = .go d → picks.length = 1 + d.wordCount + 1 →
      core.run (1 + (1 + d.wordCount + 1)) s = .next { s with
        state := (filterAtomic d s.mem).1
        err := (filterAtomic d s.mem).2.1
        job := .none
        mem := (filterAtomic d s.mem).2.2
        prog := ps
        turns := ts }) ∧
    (∀ e, d.archError = some e → picks.length = 1 →
      core.run 2 s = .next { s with
        state := (filterAtomic d s.mem).1
        err := (filterAtomic d s.mem).2.1
        job := .none
        mem := (filterAtomic d s.mem).2.2
        prog := ps
        turns := ts })

/-- R58, R155: every order of the writes is admitted. For any ordering of the NW indices some choices make the block write
in that order: after validation and `k` writes, the words still to be written are the rest of the ordering. -/
def Obligations.EveryWriteOrderAdmitted : Prop :=
  ∀ (s : State) (d : Descriptor) (order : List Nat) (ts : List Turn),
    s.Inv → s.unmarked = true → s.state = .busy → s.job = .pending .filter → s.verdict = .go d →
    order.Perm (List.range d.wordCount) →
    ∃ picks : List Nat, picks.length = d.wordCount ∧
      ∀ k ≤ d.wordCount, ∃ t R todo old,
        core.run (1 + k) { s with turns := .block 0 :: (picks.map Turn.block ++ ts) } = .next t ∧
        t.job = .writing R todo old ∧ ∀ j, j ∈ todo ↔ j ∈ order.drop k

/-- R80, R132: the result of a FILTER is a function of its descriptor and its input words, and of nothing else in the
state. -/
def Obligations.ResultDependsOnDescriptorAndInput : Prop :=
  ∀ (s s' t t' : State) (d : Descriptor) (pick pick' : Nat), s.job = .pending .filter → s'.job = .pending .filter →
    s.turn = .block pick → s'.turn = .block pick' → s.verdict = .go d → s'.verdict = .go d →
    (∀ j < d.wordCount, s.mem.readWord (d.ib + j) = s'.mem.readWord (d.ib + j)) →
    step s = .next t → step s' = .next t' →
    ∃ R todo old old', t.job = .writing R todo old ∧ t'.job = .writing R todo old'

/-! The host and data memory. -/

/-- R64: host accesses to data memory while STATE = BUSY, from the acceptance of a FILTER that will write to its end. A read
of a used output word returns its old or its final value as the free draw says; a write to a used word is F_BUSY_MEM; other
words are read and written as always. The model's own parts: byte accesses are DESIGN CHOICE (log 17), and so are the old words
recorded at validation; the final value before validation is what a validation now would compute (log 8). -/
def Obligations.HostDataAccessWhileBusy : Prop :=
  ∀ (s : State) (d : Descriptor) (R old : List PackedWord) (a : Reg32) (seesNew : Bool) (ps : List HostLine)
    (ts : List Turn), s.Inv → s.unmarked = true → s.verdict = .go d → s.turns = .host seesNew :: ts →
    ((∃ todo, s.job = .writing R todo old) ∨ (s.state = .busy ∧ s.job = .pending .filter ∧ R = d.result s.mem ∧
      old = (List.range d.wordCount).map fun j => s.mem.readWord (d.ob + j))) →
    (∀ j < d.wordCount, a.toNat = d.ob + j → ∃ v, (if seesNew then R[j]? else old[j]?) = some v ∧
      (s.prog = .memr a :: ps → step s = .next { s with reads := .word v :: s.reads, prog := ps, turns := ts }) ∧
      ∀ k : Fin 16, s.prog = .memrb a k :: ps →
        step s = .next { s with reads := .byte (lane v k.val) :: s.reads, prog := ps, turns := ts }) ∧
    ((∃ j < d.wordCount, a.toNat = d.ib + j ∨ a.toNat = d.ob + j) →
      (∀ v, s.prog = .memw a v :: ps → step s = .fault .busyMem) ∧
      ∀ k v, s.prog = .memwb a k v :: ps → step s = .fault .busyMem) ∧
    ((∀ j < d.wordCount, a.toNat ≠ d.ob + j) → a.toNat < s.memWords.val →
      (s.prog = .memr a :: ps →
        step s = .next { s with reads := .word (s.mem.readWord a.toNat) :: s.reads, prog := ps, turns := ts }) ∧
      ∀ k : Fin 16, s.prog = .memrb a k :: ps →
        step s = .next { s with
          reads := .byte (s.mem.readByte (byteNumber a.toNat k.val)) :: s.reads
          prog := ps
          turns := ts }) ∧
    ((∀ j < d.wordCount, a.toNat ≠ d.ib + j ∧ a.toNat ≠ d.ob + j) → a.toNat < s.memWords.val →
      (∀ v, s.prog = .memw a v :: ps → ∃ m : Memory, step s = .next { s with mem := m, prog := ps, turns := ts } ∧
        m.readWord a.toNat = v ∧
        ∀ b, ¬ (byteNumber a.toNat 0 ≤ b ∧ b < byteNumber a.toNat 16) → m.readByte b = s.mem.readByte b) ∧
      ∀ (k : Fin 16) (v : Byte), s.prog = .memwb a k v :: ps →
        ∃ m : Memory, step s = .next { s with mem := m, prog := ps, turns := ts } ∧
          lane (m.readWord a.toNat) k.val = v ∧
          ∀ b, b ≠ byteNumber a.toNat k.val → m.readByte b = s.mem.readByte b)

/-- R64, third item: host accesses to data memory while STATE = BUSY with a command that will not write: a reserved one, or a
FILTER whose validation does not pass. Every word is read as its contents, and a word that is in no used range of a FILTER is
written as always. That such a FILTER has no final value to show is DEDUCED (log 8), that a reserved command or an unwritten base
gives no used range is DEDUCED (log 10), and byte accesses are DESIGN CHOICE (log 17). -/
def Obligations.HostDataAccessBesideOtherCommands : Prop :=
  ∀ (s : State) (a : Reg32) (seesNew : Bool) (ps : List HostLine) (ts : List Turn), s.Inv → s.unmarked = true →
    s.state = .busy → s.turns = .host seesNew :: ts → a.toNat < s.memWords.val →
    ((∃ v, s.job = .pending (.reserved v)) ∨ (s.job = .pending .filter ∧ ∀ d, s.verdict ≠ .go d)) →
    (s.prog = .memr a :: ps →
      step s = .next { s with reads := .word (s.mem.readWord a.toNat) :: s.reads, prog := ps, turns := ts }) ∧
    (∀ k : Fin 16, s.prog = .memrb a k :: ps →
      step s = .next { s with
        reads := .byte (s.mem.readByte (byteNumber a.toNat k.val)) :: s.reads
        prog := ps
        turns := ts }) ∧
    ((s.job = .pending .filter → ∀ w h c b, s.regs.get .width = some w → s.regs.get .height = some h →
        s.regs.get .channels = some c → (s.regs.get .inBase = some b ∨ s.regs.get .outBase = some b) →
        ∀ j : Nat, (j : Int) < (w.toInt * h.toInt * c.toInt + 15) / 16 → a.toNat ≠ b.toNat + j) →
      (∀ v, s.prog = .memw a v :: ps → ∃ m : Memory, step s = .next { s with mem := m, prog := ps, turns := ts } ∧
        m.readWord a.toNat = v ∧
        ∀ b, ¬ (byteNumber a.toNat 0 ≤ b ∧ b < byteNumber a.toNat 16) → m.readByte b = s.mem.readByte b) ∧
      ∀ (k : Fin 16) (v : Byte), s.prog = .memwb a k v :: ps →
        ∃ m : Memory, step s = .next { s with mem := m, prog := ps, turns := ts } ∧
          lane (m.readWord a.toNat) k.val = v ∧
          ∀ b, b ≠ byteNumber a.toNat k.val → m.readByte b = s.mem.readByte b)

/-- R196, R64: from the acceptance of a FILTER to its end, whatever its validation will say, a write to a word of a used range
(R51) is F_BUSY_MEM. The model's own readings: that the range comes from WIDTH, HEIGHT, CHANNELS and the one base alone, whatever
the other registers hold, with `N` their signed product, two negative dimensions included, is DEDUCED (log 10); that a byte write
is F_BUSY_MEM too is DESIGN CHOICE (log 17). -/
def Obligations.UsedRangesAreGuardedWhileBusy : Prop :=
  ∀ (s : State) (w h c b a : Reg32) (j : Nat) (seesNew : Bool) (ps : List HostLine) (ts : List Turn),
    s.unmarked = true → s.state = .busy → (s.job = .pending .filter ∨ ∃ R todo old, s.job = .writing R todo old) →
    s.regs.get .width = some w → s.regs.get .height = some h → s.regs.get .channels = some c →
    (s.regs.get .inBase = some b ∨ s.regs.get .outBase = some b) →
    (j : Int) < (w.toInt * h.toInt * c.toInt + 15) / 16 → a.toNat = b.toNat + j → s.turns = .host seesNew :: ts →
    (∀ v, s.prog = .memw a v :: ps → step s = .fault .busyMem) ∧
    ∀ k v, s.prog = .memwb a k v :: ps → step s = .fault .busyMem

/-- R50, R53, R56: host accesses to data memory when STATE ≠ BUSY. A write changes the bytes it names and no other; a read
returns the contents and has no side effect. The model's own parts: the fault past MEM_WORDS is DESIGN CHOICE (log 11), and so
are the byte accesses (log 17). -/
def Obligations.HostDataAccess : Prop :=
  ∀ (s : State) (a : Reg32) (seesNew : Bool) (ps : List HostLine) (ts : List Turn),
    s.Inv → s.unmarked = true → s.state ≠ .busy → s.turns = .host seesNew :: ts →
    (a.toNat < s.memWords.val →
      (∀ v, s.prog = .memw a v :: ps → ∃ m : Memory, step s = .next { s with mem := m, prog := ps, turns := ts } ∧
        m.readWord a.toNat = v ∧
        ∀ b, ¬ (byteNumber a.toNat 0 ≤ b ∧ b < byteNumber a.toNat 16) → m.readByte b = s.mem.readByte b) ∧
      (∀ (k : Fin 16) (v : Byte), s.prog = .memwb a k v :: ps →
        ∃ m : Memory, step s = .next { s with mem := m, prog := ps, turns := ts } ∧
          lane (m.readWord a.toNat) k.val = v ∧
          ∀ b, b ≠ byteNumber a.toNat k.val → m.readByte b = s.mem.readByte b) ∧
      (s.prog = .memr a :: ps →
        step s = .next { s with reads := .word (s.mem.readWord a.toNat) :: s.reads, prog := ps, turns := ts }) ∧
      (∀ k : Fin 16, s.prog = .memrb a k :: ps →
        step s = .next { s with
          reads := .byte (s.mem.readByte (byteNumber a.toNat k.val)) :: s.reads
          prog := ps
          turns := ts })) ∧
    (s.memWords.val ≤ a.toNat →
      (∀ v, s.prog = .memw a v :: ps → step s = .fault .noSuchWord) ∧
      (∀ k v, s.prog = .memwb a k v :: ps → step s = .fault .noSuchWord) ∧
      (s.prog = .memr a :: ps → step s = .fault .noSuchWord) ∧
      ∀ k, s.prog = .memrb a k :: ps → step s = .fault .noSuchWord)

/-- R84: POLL repeats the read of STATUS until STATE ≠ BUSY. -/
def Obligations.PollRepeatsWhileBusy : Prop :=
  ∀ (s : State) (seesNew : Bool) (ps : List HostLine) (ts : List Turn), s.unmarked = true → s.turns = .host seesNew :: ts →
    s.prog = .poll :: ps →
    (s.state = .busy → step s = .next { s with reads := .reg s.status :: s.reads, turns := ts }) ∧
    (s.state ≠ .busy → step s = .next { s with reads := .reg s.status :: s.reads, prog := ps, turns := ts })

/-- R84, R178: a WRF line is the write of its decimal's pattern, and is refused where the decimal has none. -/
def Obligations.WrfWritesThePattern : Prop :=
  ∀ (s : State) (off : Offset) (d : Decimal) (seesNew : Bool) (ps : List HostLine) (ts : List Turn),
    s.unmarked = true → s.turns = .host seesNew :: ts → s.prog = .wrf off d :: ps →
    (∀ b, f32ofDecimal d = some b → step s = step { s with prog := .wr off 4 b :: ps }) ∧
    (f32ofDecimal d = none → step s = .refused .wrfNotRepresentable ∧
      (advance s).refusalMark = some .wrfNotRepresentable)

/-- R178, R164: a step that stops sets the mark that names its reason; no later step clears it, a reset included; and a state
with a mark is never final. The last clause, that only an unmarked state answers a next state, holds because a marked state keeps
answering its stop, which is the model's own, DESIGN CHOICE (log 7). -/
def Obligations.MarksAreSticky : Prop :=
  (∀ (s : State) (f : Fault), step s = .fault f → (advance s).faultMark = some f ∧ (advance s).final = false) ∧
  (∀ (s : State) (r : Refusal), step s = .refused r → (advance s).refusalMark = some r ∧ (advance s).final = false) ∧
  (∀ (s : State) (f : Fault), s.faultMark = some f → s.final = false ∧
    ∀ us : List Turn, (advance { s with turns := us }).faultMark = some f) ∧
  (∀ (s : State) (r : Refusal), s.refusalMark = some r → s.final = false ∧
    ∀ us : List Turn, (advance { s with turns := us }).refusalMark = some r) ∧
  ∀ s t : State, step s = .next t → t.unmarked = true

/-! The codec. -/

/-- R100: the flat index, and that it is a bijection from the grid's coordinates onto `0 .. N-1`. -/
def Obligations.FlatIndexIsBijection : Prop :=
  ∀ W H C : Nat, 0 < W → 0 < H → 0 < C →
    (∀ x y c, x < W → y < H → c < C → idx W C x y c = (y * W + x) * C + c ∧ idx W C x y c < W * H * C ∧
      idxX W C (idx W C x y c) = x ∧ idxY W C (idx W C x y c) = y ∧ idxC C (idx W C x y c) = c) ∧
    ∀ i, i < W * H * C → idxX W C i < W ∧ idxY W C i < H ∧ idxC C i < C ∧
      idx W C (idxX W C i) (idxY W C i) (idxC C i) = i

/-- R108: the round-trip law of the codec. -/
def Obligations.UnpackPackRoundTrip : Prop :=
  ∀ (W H C : Nat) (G : Grid), 0 < W → 0 < H → 0 < C →
    ∀ x y c, x < W → y < H → c < C → unpack (pack G W H C) W C x y c = G x y c

/-- R109: packing what was unpacked gives the words with their trailing lanes set to zero, and the words themselves exactly
when those lanes are zero. -/
def Obligations.PackUnpackNormalises : Prop :=
  ∀ (W H C : Nat) (IN : List PackedWord), 0 < W → 0 < H → 0 < C → IN.length = (W * H * C + 15) / 16 →
    (pack (unpack IN W C) W H C).length = IN.length ∧
    (∀ i < 16 * IN.length, sampleAt (pack (unpack IN W C) W H C) i = if i < W * H * C then sampleAt IN i else 0x00) ∧
    (pack (unpack IN W C) W H C = IN ↔ ∀ i < 16 * IN.length, W * H * C ≤ i → sampleAt IN i = 0x00)

/-- R107: the trailing lanes of every word PACK produces, and so of every word FILTER computes, are 0x00. -/
def Obligations.PackedTrailingLanesAreZero : Prop :=
  (∀ (W H C : Nat) (G : Grid) (j k : Nat) (w : PackedWord), (pack G W H C)[j]? = some w → k < 16 →
    W * H * C ≤ 16 * j + k → lane w k = 0x00) ∧
  ∀ (IN : List PackedWord) (W H C : Nat) (ws : Vector Reg32 9) (d : Reg32) (j k : Nat) (w : PackedWord),
    (filterWords IN W H C ws d)[j]? = some w → k < 16 → W * H * C ≤ 16 * j + k → lane w k = 0x00

/-- R104, R105: the result depends on the samples `0 .. N-1` of the input stream only; trailing lanes and further words do
not matter, whatever they hold. -/
def Obligations.TrailingInputLanesIgnored : Prop :=
  ∀ (W H C : Nat) (IN IN' : List PackedWord) (ws : Vector Reg32 9) (d : Reg32), 0 < W → 0 < H → 0 < C →
    (∀ i < W * H * C, sampleAt IN i = sampleAt IN' i) → filterWords IN W H C ws d = filterWords IN' W H C ws d

/-! The engine. -/

/-- R122: GATHER reads the neighbour where it exists, and otherwise the nearest sample of the border. -/
def Obligations.GatherReplicatesBorder : Prop :=
  ∀ (G : Grid) (W H x y c : Nat) (dx dy : Int), x < W → y < H → dx ∈ [-1, 0, (1 : Int)] → dy ∈ [-1, 0, (1 : Int)] →
    ∃ xs ys : Nat, xs < W ∧ ys < H ∧ gather G W H x y c dx dy = (G xs ys c).toNat ∧
      (0 ≤ x + dx → x + dx < W → (xs : Int) = x + dx) ∧ (x + dx < 0 → xs = 0) ∧ ((W : Int) ≤ x + dx → xs = W - 1) ∧
      (0 ≤ y + dy → y + dy < H → (ys : Int) = y + dy) ∧ (y + dy < 0 → ys = 0) ∧ ((H : Int) ≤ y + dy → ys = H - 1)

/-- R124, R128: MAC is the source's sum over the nine neighbours, and the order of the products does not matter. -/
def Obligations.MacIsOrderIndependent : Prop :=
  ∀ (wv : Fin 9 → Rat) (g : Int → Int → Int),
    macOver wv g = wv 0 * g (-1) (-1) + wv 1 * g 0 (-1) + wv 2 * g 1 (-1) + wv 3 * g (-1) 0 + wv 4 * g 0 0 +
      wv 5 * g 1 0 + wv 6 * g (-1) 1 + wv 7 * g 0 1 + wv 8 * g 1 1 ∧
    ∀ order : List (Int × Int), order.Perm neighbours →
      order.foldl (fun sum o => sum + wv (weightIndex o.1 o.2) * g o.1 o.2) 0 = macOver wv g

/-- R12: `rne` gives the nearest integer, the even one of two; `clampI` is min of max. -/
def Obligations.RoundsToNearestEven : Prop :=
  (∀ (q : Rat) (n : Int), rne q = n ↔ |q - n| < 1 / 2 ∨ (|q - n| = 1 / 2 ∧ n % 2 = 0)) ∧
  ∀ n lo hi : Int, clampI n lo hi = min (max n lo) hi

/-- R126: CLAMP saturates and never wraps. -/
def Obligations.ClampSaturates : Prop :=
  ∀ r : Int, (r < 0 → clamp r = 0x00) ∧ (255 < r → clamp r = 0xFF) ∧ (0 ≤ r → r ≤ 255 → ((clamp r).toNat : Int) = r)

/-- R121: filtering a multi-channel image is filtering each channel as an image of its own. -/
def Obligations.ChannelsAreIndependent : Prop :=
  ∀ (IN : List PackedWord) (W H C : Nat) (ws : Vector Reg32 9) (d : Reg32) (x y c : Nat),
    x < W → y < H → c < C →
    unpack (filterWords IN W H C ws d) W C x y c =
      unpack (filterWords (pack (fun x y _ => unpack IN W C x y c) W H 1) W H 1 ws d) W 1 x y 0

/-- R131: the results the rules fix. -/
def Obligations.FixedResults : Prop :=
  ∀ (G : Grid) (W H x y c : Nat) (wv : Fin 9 → Rat) (dv : Rat), x < W → y < H → dv ≠ 0 →
    ((∀ k, wv k = 0) → applyGrid G W H wv dv x y c = 0) ∧
    ((∀ x < W, ∀ y < H, G x y c = 0) → applyGrid G W H wv dv x y c = 0) ∧
    (dv < 0 → (∀ k, 0 ≤ wv k) → applyGrid G W H wv dv x y c = 0) ∧
    (dv = 1 → wv 4 = 1 → (∀ k, k ≠ 4 → wv k = 0) → applyGrid G W H wv dv x y c = G x y c) ∧
    (dv = -1 → wv 4 = -1 → (∀ k, k ≠ 4 → wv k = 0) → applyGrid G W H wv dv x y c = G x y c)

/-- R125, R126, R127, with R6 and R122's replicated border and R124's weights: what APPLY computes. The sample is the integer
nearest to the exact quotient of the weighted sum of the nine samples by the divisor, the even one of two, saturated to 0..255;
and the words of FILTERWORDS hold these samples. -/
def Obligations.ApplyRoundsTheScaledSum : Prop :=
  (∀ (G : Grid) (W H x y c : Nat) (wv : Fin 9 → Rat) (dv : Rat) (g : Int → Int → Rat), x < W → y < H → dv ≠ 0 →
    (∀ dx dy, g dx dy =
      ((G (min (max ((x : Int) + dx) 0) (W - 1)).toNat (min (max ((y : Int) + dy) 0) (H - 1)).toNat c).toNat : Rat)) →
    ∃ (q : Rat) (r : Int),
      q = (wv 0 * g (-1) (-1) + wv 1 * g 0 (-1) + wv 2 * g 1 (-1) + wv 3 * g (-1) 0 + wv 4 * g 0 0 + wv 5 * g 1 0 +
        wv 6 * g (-1) 1 + wv 7 * g 0 1 + wv 8 * g 1 1) / dv ∧
      (|q - r| < 1 / 2 ∨ (|q - r| = 1 / 2 ∧ r % 2 = 0)) ∧
      ((applyGrid G W H wv dv x y c).toNat : Int) = min (max r 0) 255) ∧
  ∀ (IN : List PackedWord) (W H C : Nat) (ws : Vector Reg32 9) (d : Reg32) (x y c : Nat), x < W → y < H → c < C →
    unpack (filterWords IN W H C ws d) W C x y c =
      applyGrid (unpack IN W C) W H (fun k => f32val ws[k.val]) (f32val d) x y c

/-- R129: with finite weights every sum is a multiple of 2^(-149) and its absolute value is below 2^140. -/
def Obligations.SumRange : Prop :=
  ∀ (w : Vector Reg32 9) (G : Grid) (W H x y c : Nat), (∀ k : Fin 9, f32finite w[k.val] = true) →
    (∃ n : Int, mac Config.boundary G W H (fun k => f32val w[k.val]) x y c * 2 ^ 149 = n) ∧
    |mac Config.boundary G W H (fun k => f32val w[k.val]) x y c| < 2 ^ 140
end

