-- ==== Sys2Proof/Laws/Binary32.lean ====
section
/-! SUPPORT. Laws of binary32 patterns (R75 to R77): a pattern's fields and its packing as numbers. -/

namespace Sys2Proof.Machine

/-- The exponent field as a number (R75). -/
theorem f32exp_eq (b : Reg32) : f32exp b = b.toNat / 2 ^ 23 % 2 ^ 8 := by
  simp [f32exp, BitVec.extractLsb'_toNat, Nat.shiftRight_eq_div_pow]

/-- The fraction field as a number (R75). -/
theorem f32frac_eq (b : Reg32) : f32frac b = b.toNat % 2 ^ 23 := by simp [f32frac, BitVec.extractLsb'_toNat]

/-- The sign bit as a comparison (R75). -/
theorem f32sign_eq (b : Reg32) : f32sign b = decide (2 ^ 31 ≤ b.toNat) := by
  have := b.isLt
  simp only [f32sign, ← BitVec.getLsbD_eq_getElem, BitVec.getLsbD, Nat.testBit_eq_decide_div_mod_eq]
  apply decide_eq_decide.2
  omega

/-- A finite pattern's exponent field (R77). -/
theorem f32finite_iff (b : Reg32) : f32finite b = true ↔ f32exp b ≤ 254 := by
  have : f32exp b < 256 := by rw [f32exp_eq]; omega
  simp [f32finite]; omega

/-- A zero's fields (R77). -/
theorem f32isZero_iff (b : Reg32) : f32isZero b = true ↔ f32exp b = 0 ∧ f32frac b = 0 := by
  have := b.isLt
  rw [f32exp_eq, f32frac_eq]
  simp only [f32isZero, beq_iff_eq, ← BitVec.toNat_inj, BitVec.extractLsb'_toNat]
  simp
  omega

/-- A packed pattern as a number (R75). -/
theorem toNat_f32pack (s : Bool) {e f : Nat} (he : e < 255) (hf : f < 2 ^ 23) :
    (f32pack s e f).toNat = (if s then 2 ^ 31 else 0) + e * 2 ^ 23 + f := by
  unfold f32pack
  rw [BitVec.toNat_append, BitVec.toNat_append, ← Nat.shiftLeft_add_eq_or_of_lt (BitVec.isLt _),
    ← Nat.shiftLeft_add_eq_or_of_lt (BitVec.isLt _)]
  simp only [Nat.shiftLeft_eq, BitVec.toNat_ofBool, BitVec.toNat_ofNat]
  rw [Nat.mod_eq_of_lt (by omega : e < 2 ^ 8), Nat.mod_eq_of_lt hf]
  cases s
  · simp
  · simp; omega

end Sys2Proof.Machine
end

