-- ==== Sys2Proof/Laws/Lanes.lean ====
section
/-! SUPPORT. Lanes of a packed word: a word is its sixteen lanes (R102, R106). -/

namespace Sys2Proof.Machine

/-- The lowest lane of a concatenation (R9). -/
theorem getLsbD_append_zero {n : Nat} (x : BitVec n) (y : Byte) {r : Nat} (hr : r < 8) :
    (x ++ y).getLsbD (8 * 0 + r) = y.getLsbD r := by
  rw [BitVec.getLsbD_append, if_pos (by omega), Nat.mul_zero, Nat.zero_add]

/-- A higher lane of a concatenation is a lane of its upper part (R9). -/
theorem getLsbD_append_succ {n : Nat} (x : BitVec n) (y : Byte) (k r : Nat) :
    (x ++ y).getLsbD (8 * (k + 1) + r) = x.getLsbD (8 * k + r) := by
  rw [BitVec.getLsbD_append, if_neg (by omega)]
  congr 1; omega

/-- Bit `r` of lane `k` of a word made of lanes (R102, R106). -/
theorem getLsbD_ofLanes_lane (f : Nat → Byte) {k r : Nat} (hk : k < 16) (hr : r < 8) :
    (ofLanes f).getLsbD (8 * k + r) = (f k).getLsbD r := by
  unfold ofLanes
  interval_cases k <;>
  · repeat rw [getLsbD_append_succ]
    first
      | exact getLsbD_append_zero _ _ hr
      | rw [Nat.mul_zero, Nat.zero_add]

/-- Bit `i` of a word made of lanes is bit `i mod 8` of lane `i div 8` (R102, R106). -/
theorem getLsbD_ofLanes (f : Nat → Byte) {i : Nat} (hi : i < 128) :
    (ofLanes f).getLsbD i = (f (i / 8)).getLsbD (i % 8) := by
  rw [← getLsbD_ofLanes_lane f (by omega : i / 8 < 16) (Nat.mod_lt _ (by omega)), Nat.div_add_mod]

/-- The lane of a word made of lanes (R106). -/
theorem lane_ofLanes (f : Nat → Byte) {k : Nat} (hk : k < 16) : lane (ofLanes f) k = f k := by
  apply BitVec.eq_of_getLsbD_eq
  intro i hi
  simp only [lane, BitVec.getLsbD_extractLsb', hi, decide_true, Bool.true_and]
  exact getLsbD_ofLanes_lane f hk hi

/-- A word is made of its lanes (R102). -/
theorem ofLanes_lane (w : PackedWord) : ofLanes (lane w) = w := by
  apply BitVec.eq_of_getLsbD_eq
  intro i hi
  rw [getLsbD_ofLanes _ hi]
  simp only [lane, BitVec.getLsbD_extractLsb', show i % 8 < 8 by omega, decide_true, Bool.true_and]
  congr 1; omega

/-- Two words with the same lanes are equal. -/
theorem lane_ext {v w : PackedWord} (h : ∀ k < 16, lane v k = lane w k) : v = w := by
  rw [← ofLanes_lane v, ← ofLanes_lane w]
  apply BitVec.eq_of_getLsbD_eq
  intro i hi
  rw [getLsbD_ofLanes _ hi, getLsbD_ofLanes _ hi, h _ (by omega)]

/-- Words made of lane functions that agree on the sixteen lanes are equal. -/
theorem ofLanes_congr {f g : Nat → Byte} (h : ∀ k < 16, f k = g k) : ofLanes f = ofLanes g :=
  lane_ext fun k hk => by rw [lane_ofLanes f hk, lane_ofLanes g hk, h k hk]

end Sys2Proof.Machine
end

