-- ==== Sys2Proof/Laws/Codec.lean ====
section
/-! SUPPORT. Laws of the codec (R100 to R110): the arithmetic of the flat index, the samples of packed words, and that PACK
looks at in-range coordinates only. -/

namespace Sys2Proof.Machine

/-- Dividing a flat index by the channel count leaves the pixel number (R100). -/
theorem idx_div (W C x y c : Nat) (hc : c < C) : idx W C x y c / C = y * W + x := by
  have hC : 0 < C := by omega
  rw [idx, Nat.mul_comm, Nat.mul_add_div hC, Nat.div_eq_of_lt hc, Nat.add_zero]

/-- PACK gives `NW` words (R101, R106). -/
@[simp] theorem pack_length (G : Grid) (W H C : Nat) : (pack G W H C).length = gridWords W H C := by simp [pack]

/-- Word `j` of what PACK gives (R106). -/
theorem getElem?_pack (G : Grid) (W H C : Nat) {j : Nat} (hj : j < gridWords W H C) :
    (pack G W H C)[j]? = some (ofLanes fun k => packByte G W H C (Config.samplesPerWord * j + k)) := by
  simp [pack, hj]

/-- Sample `i` of what PACK gives (R102, R106). -/
theorem sampleAt_pack (G : Grid) (W H C : Nat) {i : Nat} (hi : i < 16 * gridWords W H C) :
    sampleAt (pack G W H C) i = packByte G W H C i := by
  have hj : i / 16 < gridWords W H C := by omega
  have hk : i % 16 < 16 := Nat.mod_lt _ (by omega)
  rw [sampleAt, List.getD_eq_getElem?_getD, show Config.samplesPerWord = 16 from rfl, getElem?_pack _ _ _ _ hj,
    Option.getD_some, lane_ofLanes _ hk, show Config.samplesPerWord = 16 from rfl, Nat.div_add_mod]

/-- Lane `k` of word `j` is sample `16 * j + k` (R52, R102). -/
theorem lane_getElem (L : List PackedWord) {j k : Nat} (hj : j < L.length) (hk : k < 16) :
    lane L[j] k = sampleAt L (16 * j + k) := by
  have h1 : (16 * j + k) / 16 = j := by omega
  have h2 : (16 * j + k) % 16 = k := by omega
  rw [sampleAt, show Config.samplesPerWord = 16 from rfl, h1, h2, List.getD_eq_getElem?_getD,
    List.getElem?_eq_getElem hj, Option.getD_some]

/-- The coordinates of a flat index are in range (R100). -/
theorem idx_coords_lt {W H C i : Nat} (hW : 0 < W) (hC : 0 < C) (hi : i < W * H * C) :
    idxX W C i < W ∧ idxY W C i < H ∧ idxC C i < C := by
  refine ⟨Nat.mod_lt _ hW, ?_, Nat.mod_lt _ hC⟩
  rw [idxY, Nat.div_div_eq_div_mul, Nat.div_lt_iff_lt_mul (by positivity)]
  nlinarith

/-- PACK depends on the in-range samples of a grid only (R106). -/
theorem pack_congr {G G' : Grid} {W H C : Nat} (hW : 0 < W) (hC : 0 < C)
    (h : ∀ x < W, ∀ y < H, ∀ c < C, G x y c = G' x y c) : pack G W H C = pack G' W H C := by
  apply List.map_congr_left
  intro j _
  apply ofLanes_congr
  intro k _
  by_cases hi : Config.samplesPerWord * j + k < gridSamples W H C
  · obtain ⟨h1, h2, h3⟩ := idx_coords_lt hW hC hi
    simp only [packByte, if_pos hi, h _ h1 _ h2 _ h3]
  · simp only [packByte, if_neg hi]

end Sys2Proof.Machine
end

