-- ==== Sys2Proof/Laws/Engine.lean ====
section
/-! SUPPORT. Laws of the engine (R122 to R127): what it reads of a grid. -/

namespace Sys2Proof.Machine

/-- A replicated coordinate is in range (R122). -/
theorem clampI_coord_lt (x W : Nat) (dx : Int) (hx : x < W) : (clampI (x + dx) 0 (W - 1)).toNat < W := by
  simp only [clampI]; omega

/-- A gathered sample is a byte (R122). -/
theorem gather_range (G : Grid) (W H x y c : Nat) (dx dy : Int) :
    0 ≤ gather G W H x y c dx dy ∧ gather G W H x y c dx dy ≤ 255 := by
  have := (G (clampI (x + dx) 0 (W - 1)).toNat (clampI (y + dy) 0 (H - 1)).toNat c).isLt
  unfold gather; omega

/-- GATHER reads one channel of the grid, at in-range coordinates only (R121, R122). -/
theorem gather_congr {G G' : Grid} {W H c c' : Nat} (h : ∀ x < W, ∀ y < H, G x y c = G' x y c') {x y : Nat} (hx : x < W)
    (hy : y < H) (dx dy : Int) : gather G W H x y c dx dy = gather G' W H x y c' dx dy := by
  unfold gather
  rw [h _ (clampI_coord_lt x W dx hx) _ (clampI_coord_lt y H dy hy)]

/-- APPLY reads one channel of the grid, at in-range coordinates only (R121, R127). -/
theorem applyGrid_congr {G G' : Grid} {W H c c' : Nat} {wv : Fin 9 → Rat} {dv : Rat}
    (h : ∀ x < W, ∀ y < H, G x y c = G' x y c') {x y : Nat} (hx : x < W) (hy : y < H) :
    applyGrid G W H wv dv x y c = applyGrid G' W H wv dv x y c' := by
  have : gatherWith Config.boundary G W H x y c = gatherWith Config.boundary G' W H x y c' := by
    funext dx dy; exact gather_congr h hx hy dx dy
  unfold applyGrid applyWith mac
  rw [this]

end Sys2Proof.Machine
end

