-- ==== Sys2Proof/Laws/Memory.lean ====
section
/-! SUPPORT. Laws of data memory (R50 to R53): a read after a write, the canonical form and the bound are kept, and two
canonical memories that read alike are equal. -/

namespace Sys2Proof.Machine

/-- The canonical form, one entry at a time. -/
theorem Memory.wf_cons (k : Nat) (c : Byte) (m : Memory) :
    Memory.wf ((k, c) :: m) ↔ (∀ x ∈ m, k < x.1) ∧ c ≠ Memory.unlisted ∧ m.wf := by
  simp only [Memory.wf, List.map_cons, List.pairwise_cons, List.mem_map, List.forall_mem_cons]
  constructor
  · rintro ⟨⟨h1, h2⟩, h3, h4⟩
    exact ⟨fun x hx => h1 _ ⟨x, hx, rfl⟩, h3, h2, h4⟩
  · rintro ⟨h1, h3, h2, h4⟩
    exact ⟨⟨by rintro _ ⟨x, hx, rfl⟩; exact h1 x hx, h2⟩, h3, h4⟩

theorem Memory.wf_nil : Memory.wf [] := by simp [Memory.wf]

/-- A byte number below every listed one is unlisted. -/
theorem Memory.readByte_of_lt (m : Memory) (a : Nat) (h : ∀ x ∈ m, a < x.1) : m.readByte a = Memory.unlisted := by
  induction m with
  | nil => rfl
  | cons x m ih =>
    obtain ⟨k, c⟩ := x
    have hk : a < k := h (k, c) (by simp)
    rw [Memory.readByte, if_neg (by omega)]
    exact ih fun x hx => h x (by simp [hx])

/-- Reading one byte after writing one. -/
theorem Memory.readByte_writeByte (m : Memory) (a b : Nat) (v : Byte) (hm : m.wf) :
    (m.writeByte a v).readByte b = if b = a then v else m.readByte b := by
  induction m with
  | nil =>
    by_cases hv : v = Memory.unlisted
    · simp [Memory.writeByte, hv, Memory.readByte]
    · by_cases hb : b = a
      · simp [Memory.writeByte, hv, Memory.readByte, hb]
      · simp [Memory.writeByte, hv, Memory.readByte, hb, Ne.symm hb]
  | cons x m ih =>
    obtain ⟨k, c⟩ := x
    obtain ⟨hlt, -, hwf⟩ := (Memory.wf_cons k c m).1 hm
    have hlow : ∀ n, n < k → Memory.readByte m n = Memory.unlisted := fun n hn =>
      Memory.readByte_of_lt m n fun x hx => Nat.lt_trans hn (hlt x hx)
    have heq : Memory.readByte m k = Memory.unlisted := Memory.readByte_of_lt m k hlt
    rcases Nat.lt_trichotomy a k with h | h | h
    · rw [Memory.writeByte, if_pos h]
      by_cases hv : v = Memory.unlisted
      · rw [if_pos hv]
        by_cases hb : b = a
        · rw [if_pos hb, Memory.readByte, if_neg (by omega), hlow b (by omega), hv]
        · rw [if_neg hb]
      · rw [if_neg hv, Memory.readByte]
        by_cases hb : b = a
        · rw [if_pos hb, if_pos hb.symm]
        · rw [if_neg hb, if_neg (Ne.symm hb)]
    · subst h
      rw [Memory.writeByte, if_neg (Nat.lt_irrefl _), if_pos rfl]
      by_cases hv : v = Memory.unlisted
      · rw [if_pos hv, Memory.readByte]
        by_cases hb : b = a
        · rw [if_pos hb, hb, heq, hv]
        · rw [if_neg hb, if_neg (Ne.symm hb)]
      · rw [if_neg hv, Memory.readByte, Memory.readByte]
        by_cases hb : b = a
        · rw [if_pos hb, if_pos hb.symm]
        · rw [if_neg hb, if_neg (Ne.symm hb), if_neg (Ne.symm hb)]
    · rw [Memory.writeByte, if_neg (by omega), if_neg (by omega), Memory.readByte, Memory.readByte, ih hwf]
      by_cases hb : b = a
      · rw [if_pos hb, if_pos hb, if_neg (by omega)]
      · rw [if_neg hb, if_neg hb]

/-- The entries of a memory after writing one byte. -/
theorem Memory.mem_writeByte (m : Memory) (a : Nat) (v : Byte) {x : Host.Cell} (hx : x ∈ m.writeByte a v) :
    x ∈ m ∨ (x = (a, v) ∧ v ≠ Memory.unlisted) := by
  induction m with
  | nil =>
    simp only [Memory.writeByte] at hx
    split_ifs at hx with h
    · simp at hx
    · exact .inr ⟨by simpa using hx, h⟩
  | cons y m ih =>
    obtain ⟨k, c⟩ := y
    simp only [Memory.writeByte] at hx
    split_ifs at hx with h1 h2 h3 h4
    · exact .inl hx
    · rcases List.mem_cons.1 hx with rfl | hx
      · exact .inr ⟨rfl, h2⟩
      · exact .inl hx
    · exact .inl (by simp [hx])
    · rcases List.mem_cons.1 hx with rfl | hx
      · exact .inr ⟨rfl, h4⟩
      · exact .inl (by simp [hx])
    · rcases List.mem_cons.1 hx with rfl | hx
      · exact .inl (by simp)
      · rcases ih hx with h | h
        · exact .inl (by simp [h])
        · exact .inr h

/-- Writing one byte keeps the canonical form. -/
theorem Memory.writeByte_wf (m : Memory) (a : Nat) (v : Byte) (hm : m.wf) : (m.writeByte a v).wf := by
  induction m with
  | nil =>
    simp only [Memory.writeByte]
    split_ifs with h
    · exact hm
    · exact (Memory.wf_cons _ _ _).2 ⟨by simp, h, Memory.wf_nil⟩
  | cons y m ih =>
    obtain ⟨k, c⟩ := y
    obtain ⟨hlt, hc, hwf⟩ := (Memory.wf_cons k c m).1 hm
    simp only [Memory.writeByte]
    split_ifs with h1 h2 h3 h4
    · exact hm
    · refine (Memory.wf_cons _ _ _).2 ⟨?_, h2, hm⟩
      intro x hx
      rcases List.mem_cons.1 hx with rfl | hx
      · exact h1
      · exact Nat.lt_trans h1 (hlt x hx)
    · exact hwf
    · exact (Memory.wf_cons _ _ _).2 ⟨h3 ▸ hlt, h4, hwf⟩
    · refine (Memory.wf_cons _ _ _).2 ⟨?_, hc, ih hwf⟩
      intro x hx
      rcases Memory.mem_writeByte m a v hx with hx | ⟨rfl, -⟩
      · exact hlt x hx
      · simp; omega

/-- Writing one byte below a bound keeps every listed byte below it. -/
theorem Memory.writeByte_bound (m : Memory) (a : Nat) (v : Byte) (n : Nat) (hm : ∀ c ∈ m, c.1 < n) (ha : a < n) :
    ∀ c ∈ m.writeByte a v, c.1 < n := by
  intro x hx
  rcases Memory.mem_writeByte m a v hx with hx | ⟨rfl, -⟩
  · exact hm x hx
  · exact ha

/-- Canonical memories that read alike are equal. -/
theorem Memory.ext_of_readByte (m m' : Memory) (hm : m.wf) (hm' : m'.wf) (h : ∀ a, m.readByte a = m'.readByte a) :
    m = m' := by
  have hread : ∀ (k : Nat) (c : Byte) (m : Memory), Memory.readByte ((k, c) :: m) k = c := by
    intro k c m; simp [Memory.readByte]
  induction m generalizing m' with
  | nil =>
    cases m' with
    | nil => rfl
    | cons y m' =>
      obtain ⟨k, c⟩ := y
      have := h k
      rw [hread] at this
      exact absurd this.symm ((Memory.wf_cons _ _ _).1 hm').2.1
  | cons x m ih =>
    obtain ⟨k, c⟩ := x
    obtain ⟨hlt, hc, hwf⟩ := (Memory.wf_cons k c m).1 hm
    cases m' with
    | nil =>
      have := h k
      rw [hread] at this
      exact absurd this hc
    | cons y m' =>
      obtain ⟨k', c'⟩ := y
      obtain ⟨hlt', hc', hwf'⟩ := (Memory.wf_cons k' c' m').1 hm'
      have hkk : k = k' := by
        rcases Nat.lt_trichotomy k k' with hk | hk | hk
        · have := h k
          rw [hread, Memory.readByte_of_lt ((k', c') :: m') k] at this
          · exact absurd this hc
          · intro x hx
            rcases List.mem_cons.1 hx with rfl | hx
            · exact hk
            · exact Nat.lt_trans hk (hlt' x hx)
        · exact hk
        · have := h k'
          rw [hread, Memory.readByte_of_lt ((k, c) :: m) k'] at this
          · exact absurd this.symm hc'
          · intro x hx
            rcases List.mem_cons.1 hx with rfl | hx
            · exact hk
            · exact Nat.lt_trans hk (hlt x hx)
      subst hkk
      have hcc : c = c' := by simpa [hread] using h k
      subst hcc
      congr 1
      refine ih m' hwf hwf' fun a => ?_
      by_cases ha : a = k
      · subst ha
        rw [Memory.readByte_of_lt m a hlt, Memory.readByte_of_lt m' a hlt']
      · simpa [Memory.readByte, Ne.symm ha] using h a

/-- A byte number is in one word only. -/
theorem byteNumber_inj {a b k l : Nat} (hk : k < 16) (hl : l < 16) : byteNumber a k = byteNumber b l ↔ a = b ∧ k = l := by
  simp only [byteNumber, Config.samplesPerWord]; omega

/-- Writing lanes keeps the canonical form. -/
theorem Memory.writeLanes_wf (m : Memory) (a : Nat) (v : PackedWord) (k n : Nat) (hm : m.wf) :
    (m.writeLanes a v k n).wf := by
  induction n generalizing m k with
  | zero => exact hm
  | succ n ih => exact ih _ _ (Memory.writeByte_wf _ _ _ hm)

/-- Reading one byte after writing lanes. -/
theorem Memory.readByte_writeLanes (m : Memory) (a : Nat) (v : PackedWord) (k n b : Nat) (hm : m.wf) :
    (m.writeLanes a v k n).readByte b =
      if byteNumber a k ≤ b ∧ b < byteNumber a k + n then lane v (b - byteNumber a 0) else m.readByte b := by
  induction n generalizing m k with
  | zero => rw [if_neg (by omega)]; rfl
  | succ n ih =>
    rw [Memory.writeLanes, ih _ _ (Memory.writeByte_wf _ _ _ hm), Memory.readByte_writeByte _ _ _ _ hm]
    by_cases h1 : byteNumber a (k + 1) ≤ b ∧ b < byteNumber a (k + 1) + n
    · rw [if_pos h1, if_pos (by simp only [byteNumber] at h1 ⊢; omega)]
    · rw [if_neg h1]
      by_cases h2 : b = byteNumber a k
      · subst h2
        rw [if_pos rfl, if_pos (by omega)]
        congr 1; simp only [byteNumber]; omega
      · rw [if_neg h2, if_neg (by simp only [byteNumber] at h1 h2 ⊢; omega)]

/-- Writing a word keeps the canonical form. -/
theorem Memory.writeWord_wf (m : Memory) (a : Nat) (v : PackedWord) (hm : m.wf) : (m.writeWord a v).wf := by
  unfold Memory.writeWord; exact Memory.writeLanes_wf m a v 0 _ hm

/-- Reading one byte after writing a word: only the sixteen bytes of the word change (R50). -/
theorem Memory.readByte_writeWord (m : Memory) (a : Nat) (v : PackedWord) (b : Nat) (hm : m.wf) :
    (m.writeWord a v).readByte b =
      if byteNumber a 0 ≤ b ∧ b < byteNumber a 16 then lane v (b - byteNumber a 0) else m.readByte b := by
  unfold Memory.writeWord; exact Memory.readByte_writeLanes _ _ _ _ _ _ hm

/-- Writing lanes of a word below a bound keeps the bound. -/
theorem Memory.writeLanes_bound (m : Memory) (a : Nat) (v : PackedWord) (k n w : Nat) (hm : ∀ c ∈ m, c.1 < byteNumber w 0)
    (ha : a < w) (hk : k + n ≤ 16) : ∀ c ∈ m.writeLanes a v k n, c.1 < byteNumber w 0 := by
  induction n generalizing m k with
  | zero => exact hm
  | succ n ih =>
    refine ih _ _ (Memory.writeByte_bound _ _ _ _ hm ?_) (by omega)
    simp only [byteNumber, Config.samplesPerWord]; omega

/-- Writing a word that data memory has keeps the bound (R50). -/
theorem Memory.writeWord_bound (m : Memory) (a : Nat) (v : PackedWord) (w : Nat) (hm : ∀ c ∈ m, c.1 < byteNumber w 0)
    (ha : a < w) : ∀ c ∈ m.writeWord a v, c.1 < byteNumber w 0 := by
  unfold Memory.writeWord; exact Memory.writeLanes_bound m a v 0 _ w hm ha (by decide)

/-- A lane of a word that is read is a byte of memory. -/
theorem Memory.lane_readWord (m : Memory) (a : Nat) {k : Nat} (hk : k < 16) :
    lane (m.readWord a) k = m.readByte (byteNumber a k) := by
  unfold Memory.readWord; exact lane_ofLanes _ hk

/-- Reading a word after writing one (R50). -/
theorem Memory.readWord_writeWord (m : Memory) (a b : Nat) (v : PackedWord) (hm : m.wf) :
    (m.writeWord a v).readWord b = if b = a then v else m.readWord b := by
  apply lane_ext
  intro k hk
  rw [Memory.lane_readWord _ _ hk, Memory.readByte_writeWord _ _ _ _ hm]
  by_cases h : b = a
  · subst h
    rw [if_pos rfl, if_pos (by simp only [byteNumber]; omega)]
    congr 1; simp only [byteNumber]; omega
  · rw [if_neg (by simp only [byteNumber, Config.samplesPerWord]; omega), if_neg h, Memory.lane_readWord _ _ hk]

/-- Writing a byte changes no other word (R53). -/
theorem Memory.readWord_writeByte_ne (m : Memory) (a k b : Nat) (v : Byte) (hm : m.wf) (hk : k < 16) (h : b ≠ a) :
    (m.writeByte (byteNumber a k) v).readWord b = m.readWord b := by
  apply lane_ext
  intro l hl
  rw [Memory.lane_readWord _ _ hl, Memory.lane_readWord _ _ hl, Memory.readByte_writeByte _ _ _ _ hm,
    if_neg (fun e => h ((byteNumber_inj hl hk).1 e).1)]

/-- The words that are read are as many as asked for. -/
@[simp] theorem Memory.length_readWords (m : Memory) (base n : Nat) : (m.readWords base n).length = n := by
  simp [Memory.readWords]

/-- Word `j` of the words that are read. -/
theorem Memory.getElem?_readWords (m : Memory) (base n j : Nat) :
    (m.readWords base n)[j]? = if j < n then some (m.readWord (base + j)) else none := by
  simp only [Memory.readWords, List.getElem?_map]
  split_ifs with h
  · simp [h]
  · simp [Nat.le_of_not_lt h]

/-- Memories that agree on the words read give the same words. -/
theorem Memory.readWords_congr (m m' : Memory) (base n : Nat) (h : ∀ j < n, m.readWord (base + j) = m'.readWord (base + j)) :
    m.readWords base n = m'.readWords base n := by
  apply List.ext_getElem?
  intro j
  rw [Memory.getElem?_readWords, Memory.getElem?_readWords]
  split_ifs with hj
  · rw [h j hj]
  · rfl

/-- Writing words keeps the canonical form. -/
theorem Memory.writeWords_wf (m : Memory) (base : Nat) (vs : List PackedWord) (hm : m.wf) : (m.writeWords base vs).wf := by
  induction vs generalizing m base with
  | nil => exact hm
  | cons v vs ih => exact ih _ _ (Memory.writeWord_wf _ _ _ hm)

/-- Reading a word after writing words from `base` on: the words written, and every other as before. -/
theorem Memory.readWord_writeWords (m : Memory) (base : Nat) (vs : List PackedWord) (b : Nat) (hm : m.wf) :
    (m.writeWords base vs).readWord b =
      if base ≤ b then (vs[b - base]?).getD (m.readWord b) else m.readWord b := by
  induction vs generalizing m base with
  | nil => simp [Memory.writeWords]
  | cons v vs ih =>
    rw [Memory.writeWords, ih _ _ (Memory.writeWord_wf _ _ _ hm), Memory.readWord_writeWord _ _ _ _ hm]
    by_cases h1 : base + 1 ≤ b
    · rw [if_pos h1, if_pos (by omega : base ≤ b), if_neg (by omega : ¬ b = base), show b - base = (b - (base + 1)) + 1 by omega,
        List.getElem?_cons_succ]
    · rw [if_neg h1]
      by_cases h2 : b = base
      · subst h2; simp
      · rw [if_neg h2, if_neg (by omega)]

end Sys2Proof.Machine
end

