-- ==== Sys2Proof/Laws/Operands.lean ====
section
/-! SUPPORT. The operand registers and the verdict of the validation step: a read after a write, and what each verdict says
(R34, R153, R171, R172, R180). -/

namespace Sys2Proof.Machine

/-- Reading an operand register after writing one (R34). -/
theorem Regs.get_set (r : Regs) (o p : OpReg) (v : Reg32) : (r.set o v).get p = if p = o then some v else r.get p := by
  cases o <;> cases p <;> simp [Regs.set, Regs.get, Vector.getElem_set, Fin.ext_iff, eq_comm]

@[simp] theorem Regs.get_set_same (r : Regs) (o : OpReg) (v : Reg32) : (r.set o v).get o = some v := by
  rw [Regs.get_set, if_pos rfl]

theorem Regs.get_set_ne (r : Regs) {o p : OpReg} (v : Reg32) (h : p ≠ o) : (r.set o v).get p = r.get p := by
  rw [Regs.get_set, if_neg h]

/-- Every operand register is unwritten after reset (R39). -/
@[simp] theorem Regs.get_unwritten (o : OpReg) : Regs.unwritten.get o = none := by
  cases o <;> simp [Regs.unwritten, Regs.get]

/-- The list of operand registers holds each of the 17 (R23). -/
theorem OpReg.mem_all (o : OpReg) : o ∈ OpReg.all := by
  cases o
  case weight k => revert k; decide
  all_goals decide

/-- All registers are written exactly when each is (R193). -/
theorem Regs.allWritten_iff (r : Regs) : r.allWritten = true ↔ ∀ o, r.get o ≠ none := by
  simp only [Regs.allWritten, List.all_eq_true, Option.isSome_iff_ne_none]
  exact ⟨fun h o => h o o.mem_all, fun h o _ => h o⟩

/-- A written register's contents. -/
theorem Regs.value_of_get {r : Regs} {o : OpReg} {v : Reg32} (h : r.get o = some v) : r.value o = v := by
  simp [Regs.value, h]

/-- The contents of each register when all are written. -/
theorem Regs.get_of_allWritten {r : Regs} (h : r.allWritten = true) (o : OpReg) : r.get o = some (r.value o) := by
  obtain ⟨v, hv⟩ := Option.ne_none_iff_exists'.1 (r.allWritten_iff.1 h o)
  rw [hv, Regs.value_of_get hv]

/-- There is a descriptor exactly when all registers are written (R153). -/
theorem Regs.descriptor_eq_some {r : Regs} {d : Descriptor} :
    r.descriptor = some d ↔ r.allWritten = true ∧ d = r.readDescriptor := by
  unfold Regs.descriptor; split_ifs with h <;> simp [h, eq_comm]

/-- There is no descriptor exactly when a register is unwritten (R33, R153). -/
theorem Regs.descriptor_eq_none {r : Regs} : r.descriptor = none ↔ ∃ o, r.get o = none := by
  unfold Regs.descriptor
  split_ifs with h
  · simp [r.allWritten_iff.1 h]
  · simpa [Regs.allWritten_iff] using h

/-- Weight `k` of the descriptor is WEIGHTk (R30, R81). -/
theorem Regs.readDescriptor_weight (r : Regs) (k : Fin 9) : r.readDescriptor.w[k.val] = r.value (.weight k) := by
  revert k; rw [Fin.forall_iff]; intro k hk
  interval_cases k <;> rfl

/-- The verdict is GO exactly when every check of R153 passes. -/
theorem Descriptor.verdict_eq_go (d e : Descriptor) (n : Nat) :
    d.verdict n = .go e ↔ d = e ∧ d.archError = none ∧ d.overlaps = false ∧ d.pastMemory n = false := by
  unfold Descriptor.verdict
  cases h : d.archError <;> simp
  split_ifs <;> simp_all

/-- The verdict of a state is GO exactly when the registers give a descriptor that passes (R153). -/
theorem State.verdict_eq_go (s : State) (d : Descriptor) :
    s.verdict = .go d ↔ s.regs.descriptor = some d ∧ d.archError = none ∧ d.overlaps = false ∧
      d.pastMemory s.memWords.val = false := by
  unfold State.verdict
  cases h : s.regs.descriptor with
  | none => simp
  | some e =>
    simp only [Descriptor.verdict_eq_go, Option.some.injEq]
    constructor
    · rintro ⟨rfl, h⟩; exact ⟨rfl, h⟩
    · rintro ⟨rfl, h⟩; exact ⟨rfl, h⟩

/-- No architectural error means that no condition of R171 and R172 holds. -/
theorem Descriptor.archError_eq_none (d : Descriptor) :
    d.archError = none ↔ (0 < d.W ∧ 0 < d.H ∧ 0 < d.C) ∧ d.wordCount ≤ d.iw ∧ d.wordCount ≤ d.ow ∧
      (f32isZero d.d = false ∧ f32finite d.d = true) ∧ ∀ k : Fin 9, f32finite d.w[k.val] = true := by
  unfold Descriptor.archError
  split_ifs with h1 h2 h3 h4 h5 <;> simp_all
  · intros; omega
  · intro h6 h7; simp [h6, h7] at h4

/-- The verdict depends on the registers and on `MEM_WORDS` alone. -/
theorem State.verdict_congr {s t : State} (hr : t.regs = s.regs) (hm : t.memWords = s.memWords) : t.verdict = s.verdict := by
  simp only [State.verdict, hr, hm]

/-- With all registers written, `NW` is the descriptor's (R51, R101). -/
theorem Regs.usedWords_of_descriptor {r : Regs} {d : Descriptor} (h : r.descriptor = some d) :
    r.usedWords = some d.wordCount := by
  obtain ⟨hw, rfl⟩ := Regs.descriptor_eq_some.1 h
  have e1 : r.width = some _ := r.get_of_allWritten hw .width
  have e2 : r.height = some _ := r.get_of_allWritten hw .height
  have e3 : r.channels = some _ := r.get_of_allWritten hw .channels
  simp only [Regs.usedWords, e1, e2, e3, Option.bind_some, Option.map_some]
  rfl

/-- With all registers written, the used input range is the descriptor's (R51). -/
theorem Regs.inUsedRange_inBase {r : Regs} {d : Descriptor} (h : r.descriptor = some d) (a : Nat) :
    r.inUsedRange r.inBase a = inRange d.ib d.wordCount a := by
  obtain ⟨hw, hd⟩ := Regs.descriptor_eq_some.1 h
  have e : r.inBase = some _ := r.get_of_allWritten hw .inBase
  simp only [Regs.inUsedRange, Regs.usedWords_of_descriptor h, e]
  rw [hd]; rfl

/-- With all registers written, the used output range is the descriptor's (R51). -/
theorem Regs.inUsedRange_outBase {r : Regs} {d : Descriptor} (h : r.descriptor = some d) (a : Nat) :
    r.inUsedRange r.outBase a = inRange d.ob d.wordCount a := by
  obtain ⟨hw, hd⟩ := Regs.descriptor_eq_some.1 h
  have e : r.outBase = some _ := r.get_of_allWritten hw .outBase
  simp only [Regs.inUsedRange, Regs.usedWords_of_descriptor h, e]
  rw [hd]; rfl

/-- The used words of a FILTER in progress whose registers are all written (R51). -/
theorem State.usesWord_of_descriptor {s : State} {d : Descriptor} (hf : s.filterInProgress = true)
    (h : s.regs.descriptor = some d) (a : Nat) :
    s.usesWord a = (inRange d.ib d.wordCount a || inRange d.ob d.wordCount a) := by
  rw [State.usesWord, hf, Bool.true_and, Regs.inUsedRange_inBase h, Regs.inUsedRange_outBase h]

/-- The used words of a FILTER that is writing. -/
theorem State.usesWord_eq_of_go {s : State} {d : Descriptor} {R : List PackedWord} {todo : List Nat} {old : List PackedWord}
    (hj : s.job = .writing R todo old) (h : s.verdict = .go d) (a : Nat) :
    s.usesWord a = (inRange d.ib d.wordCount a || inRange d.ob d.wordCount a) :=
  State.usesWord_of_descriptor (by simp [State.filterInProgress, hj]) ((s.verdict_eq_go d).1 h).1 a

/-- Being in a used range (R51). -/
theorem inRange_iff (base n a : Nat) : inRange base n a = true ↔ base ≤ a ∧ a < base + n := by simp [inRange]

/-- Being in the used range of a base register (R51), in terms of the registers. -/
theorem Regs.inUsedRange_iff (r : Regs) (base : Option Reg32) (a : Nat) :
    r.inUsedRange base a = true ↔ ∃ w h c b, ∃ j : Nat, r.width = some w ∧ r.height = some h ∧ r.channels = some c ∧
      base = some b ∧ (j : Int) < (w.toInt * h.toInt * c.toInt + 15) / 16 ∧ a = b.toNat + j := by
  unfold Regs.inUsedRange Regs.usedWords
  cases r.width <;> cases r.height <;> cases r.channels <;> cases base <;> simp
  rename_i b
  rw [inRange_iff, wordsOf]
  constructor
  · rintro ⟨h1, h2⟩; exact ⟨a - b.toNat, by omega, by omega⟩
  · rintro ⟨j, h1, rfl⟩; omega

/-- The used ranges do not overlap when no word is in both (R61). -/
theorem Descriptor.overlaps_eq_false (d : Descriptor) :
    d.overlaps = false ↔ d.ob + d.wordCount ≤ d.ib ∨ d.ib + d.wordCount ≤ d.ob := by
  simp [Descriptor.overlaps]; omega

/-- The used ranges lie in data memory (R59). -/
theorem Descriptor.pastMemory_eq_false (d : Descriptor) (n : Nat) :
    d.pastMemory n = false ↔ d.ib + d.wordCount ≤ n ∧ d.ob + d.wordCount ≤ n := by
  simp [Descriptor.pastMemory]

end Sys2Proof.Machine
end

