-- ==== Sys2Proof/Laws/Block.lean ====
section
/-! SUPPORT. Laws of the block's result (R154) and of runs of several steps. -/

namespace Sys2Proof.Machine

/-- A descriptor that passes the checks has `NW` result words (R101, R154). -/
theorem Descriptor.length_result (d : Descriptor) (m : Memory) (h : d.archError = none) :
    (d.result m).length = d.wordCount := by
  obtain ⟨⟨h1, h2, h3⟩, -⟩ := d.archError_eq_none.1 h
  obtain ⟨w, hw⟩ := Int.eq_ofNat_of_zero_le h1.le
  obtain ⟨y, hy⟩ := Int.eq_ofNat_of_zero_le h2.le
  obtain ⟨c, hc⟩ := Int.eq_ofNat_of_zero_le h3.le
  simp only [Descriptor.result, filterWords, pack_length, gridWords, gridSamples, Config.samplesPerWord,
    Descriptor.wordCount, wordsOf, Descriptor.sampleCount, hw, hy, hc, Int.toNat_natCast]
  norm_cast

/-- The result depends on the used input words only (R132, R154). -/
theorem Descriptor.result_congr {d : Descriptor} {m m' : Memory}
    (h : ∀ j < d.wordCount, m.readWord (d.ib + j) = m'.readWord (d.ib + j)) : d.result m = d.result m' := by
  rw [Descriptor.result, Descriptor.result, Memory.readWords_congr m m' d.ib d.wordCount h]

/-- A run whose first step goes on. -/
theorem run_succ_of_next {s t : State} (k : Nat) (h : step s = .next t) : core.run (k + 1) s = core.run k t := by
  have : core.step s = .next t := h
  simp only [Host.Core.run, this]

/-- A run in two parts. -/
theorem run_add_of_next {s t : State} (a b : Nat) (h : core.run a s = .next t) :
    core.run (a + b) s = core.run b t := by
  induction a generalizing s with
  | zero =>
    obtain rfl : s = t := Host.Outcome.next.inj h
    rw [Nat.zero_add]
  | succ a ih =>
    rw [show a + 1 + b = (a + b) + 1 by omega]
    simp only [Host.Core.run] at h ⊢
    cases hs : core.step s with
    | next s' => rw [hs] at h; exact ih h
    | fault => rw [hs] at h; simp at h
    | refused => rw [hs] at h; simp at h

end Sys2Proof.Machine
end

