-- ==== Sys2Proof/Laws/PerInstr.lean ====
section
/-! SUPPORT. Per-instruction statements about the instructions as syntax: the family RoundTrip (R70, R71, R82). -/

namespace Sys2Proof.Laws.RoundTrip

/-- The instruction is well formed, its command word decodes to it and nothing else does. -/
def Statement (i : Instr) : Prop :=
  i.wellFormed = true ∧ decodeCtrl (encode i) = .instr i ∧ decodeTableWord 32 (encode i).toNat = some i

theorem clear : Statement .clear := by unfold Statement; decide

theorem filter : Statement .filter := by unfold Statement; decide

end Sys2Proof.Laws.RoundTrip
end

