-- ==== Sys2Proof/Laws/State.lean ====
section
/-! SUPPORT. One lemma per field of the state and per named update of it, each true by rfl, so that no proof unfolds a
record update. -/

namespace Sys2Proof.Machine

@[simp] theorem State.launch_state (m : Memory) : (State.launch m).state = .idle := rfl
@[simp] theorem State.launch_err (m : Memory) : (State.launch m).err = .none := rfl
@[simp] theorem State.launch_regs (m : Memory) : (State.launch m).regs = Regs.unwritten := rfl
@[simp] theorem State.launch_job (m : Memory) : (State.launch m).job = .none := rfl
@[simp] theorem State.launch_mem (m : Memory) : (State.launch m).mem = m := rfl
@[simp] theorem State.launch_faultMark (m : Memory) : (State.launch m).faultMark = none := rfl
@[simp] theorem State.launch_refusalMark (m : Memory) : (State.launch m).refusalMark = none := rfl
@[simp] theorem State.launch_memWords (m : Memory) : (State.launch m).memWords = Config.memWords := rfl
@[simp] theorem State.launch_prog (m : Memory) : (State.launch m).prog = [] := rfl
@[simp] theorem State.launch_reads (m : Memory) : (State.launch m).reads = [] := rfl
@[simp] theorem State.launch_turns (m : Memory) : (State.launch m).turns = [] := rfl

variable (s : State)

@[simp] theorem State.endWithError_state (e : ArchError) : (s.endWithError e).state = .error := rfl
@[simp] theorem State.endWithError_err (e : ArchError) : (s.endWithError e).err = e.code := rfl
@[simp] theorem State.endWithError_regs (e : ArchError) : (s.endWithError e).regs = s.regs := rfl
@[simp] theorem State.endWithError_job (e : ArchError) : (s.endWithError e).job = .none := rfl
@[simp] theorem State.endWithError_mem (e : ArchError) : (s.endWithError e).mem = s.mem := rfl
@[simp] theorem State.endWithError_faultMark (e : ArchError) : (s.endWithError e).faultMark = s.faultMark := rfl
@[simp] theorem State.endWithError_refusalMark (e : ArchError) : (s.endWithError e).refusalMark = s.refusalMark := rfl
@[simp] theorem State.endWithError_memWords (e : ArchError) : (s.endWithError e).memWords = s.memWords := rfl
@[simp] theorem State.endWithError_prog (e : ArchError) : (s.endWithError e).prog = s.prog := rfl
@[simp] theorem State.endWithError_reads (e : ArchError) : (s.endWithError e).reads = s.reads := rfl
@[simp] theorem State.endWithError_turns (e : ArchError) : (s.endWithError e).turns = s.turns := rfl

@[simp] theorem State.accept_state (c : PendingCmd) : (s.accept c).state = .busy := rfl
@[simp] theorem State.accept_err (c : PendingCmd) : (s.accept c).err = .none := rfl
@[simp] theorem State.accept_regs (c : PendingCmd) : (s.accept c).regs = s.regs := rfl
@[simp] theorem State.accept_job (c : PendingCmd) : (s.accept c).job = .pending c := rfl
@[simp] theorem State.accept_mem (c : PendingCmd) : (s.accept c).mem = s.mem := rfl
@[simp] theorem State.accept_faultMark (c : PendingCmd) : (s.accept c).faultMark = s.faultMark := rfl
@[simp] theorem State.accept_refusalMark (c : PendingCmd) : (s.accept c).refusalMark = s.refusalMark := rfl
@[simp] theorem State.accept_memWords (c : PendingCmd) : (s.accept c).memWords = s.memWords := rfl
@[simp] theorem State.accept_prog (c : PendingCmd) : (s.accept c).prog = s.prog := rfl
@[simp] theorem State.accept_reads (c : PendingCmd) : (s.accept c).reads = s.reads := rfl
@[simp] theorem State.accept_turns (c : PendingCmd) : (s.accept c).turns = s.turns := rfl

@[simp] theorem State.resetBlock_state : (s.resetBlock).state = .idle := rfl
@[simp] theorem State.resetBlock_err : (s.resetBlock).err = .none := rfl
@[simp] theorem State.resetBlock_regs : (s.resetBlock).regs = Regs.unwritten := rfl
@[simp] theorem State.resetBlock_job : (s.resetBlock).job = .none := rfl
@[simp] theorem State.resetBlock_mem : (s.resetBlock).mem = s.mem := rfl
@[simp] theorem State.resetBlock_faultMark : (s.resetBlock).faultMark = s.faultMark := rfl
@[simp] theorem State.resetBlock_refusalMark : (s.resetBlock).refusalMark = s.refusalMark := rfl
@[simp] theorem State.resetBlock_memWords : (s.resetBlock).memWords = s.memWords := rfl
@[simp] theorem State.resetBlock_prog : (s.resetBlock).prog = s.prog := rfl
@[simp] theorem State.resetBlock_reads : (s.resetBlock).reads = s.reads := rfl
@[simp] theorem State.resetBlock_turns : (s.resetBlock).turns = s.turns := rfl

@[simp] theorem State.dropTurn_state : (s.dropTurn).state = s.state := rfl
@[simp] theorem State.dropTurn_err : (s.dropTurn).err = s.err := rfl
@[simp] theorem State.dropTurn_regs : (s.dropTurn).regs = s.regs := rfl
@[simp] theorem State.dropTurn_job : (s.dropTurn).job = s.job := rfl
@[simp] theorem State.dropTurn_mem : (s.dropTurn).mem = s.mem := rfl
@[simp] theorem State.dropTurn_faultMark : (s.dropTurn).faultMark = s.faultMark := rfl
@[simp] theorem State.dropTurn_refusalMark : (s.dropTurn).refusalMark = s.refusalMark := rfl
@[simp] theorem State.dropTurn_memWords : (s.dropTurn).memWords = s.memWords := rfl
@[simp] theorem State.dropTurn_prog : (s.dropTurn).prog = s.prog := rfl
@[simp] theorem State.dropTurn_reads : (s.dropTurn).reads = s.reads := rfl
@[simp] theorem State.dropTurn_turns : (s.dropTurn).turns = s.turns.tail := rfl

@[simp] theorem State.sawValue_state (v : HostRead) : (s.sawValue v).state = s.state := rfl
@[simp] theorem State.sawValue_err (v : HostRead) : (s.sawValue v).err = s.err := rfl
@[simp] theorem State.sawValue_regs (v : HostRead) : (s.sawValue v).regs = s.regs := rfl
@[simp] theorem State.sawValue_job (v : HostRead) : (s.sawValue v).job = s.job := rfl
@[simp] theorem State.sawValue_mem (v : HostRead) : (s.sawValue v).mem = s.mem := rfl
@[simp] theorem State.sawValue_faultMark (v : HostRead) : (s.sawValue v).faultMark = s.faultMark := rfl
@[simp] theorem State.sawValue_refusalMark (v : HostRead) : (s.sawValue v).refusalMark = s.refusalMark := rfl
@[simp] theorem State.sawValue_memWords (v : HostRead) : (s.sawValue v).memWords = s.memWords := rfl
@[simp] theorem State.sawValue_prog (v : HostRead) : (s.sawValue v).prog = s.prog := rfl
@[simp] theorem State.sawValue_reads (v : HostRead) : (s.sawValue v).reads = v :: s.reads := rfl
@[simp] theorem State.sawValue_turns (v : HostRead) : (s.sawValue v).turns = s.turns := rfl

@[simp] theorem State.withFetchWord_state (n w : Nat) : (s.withFetchWord n w).state = s.state := rfl
@[simp] theorem State.withFetchWord_err (n w : Nat) : (s.withFetchWord n w).err = s.err := rfl
@[simp] theorem State.withFetchWord_regs (n w : Nat) : (s.withFetchWord n w).regs = s.regs := rfl
@[simp] theorem State.withFetchWord_job (n w : Nat) : (s.withFetchWord n w).job = s.job := rfl
@[simp] theorem State.withFetchWord_mem (n w : Nat) : (s.withFetchWord n w).mem = s.mem := rfl
@[simp] theorem State.withFetchWord_faultMark (n w : Nat) : (s.withFetchWord n w).faultMark = s.faultMark := rfl
@[simp] theorem State.withFetchWord_refusalMark (n w : Nat) : (s.withFetchWord n w).refusalMark = s.refusalMark := rfl
@[simp] theorem State.withFetchWord_memWords (n w : Nat) : (s.withFetchWord n w).memWords = s.memWords := rfl
@[simp] theorem State.withFetchWord_prog (n w : Nat) : (s.withFetchWord n w).prog = ctrlLine (BitVec.ofNat 32 w) :: s.prog := rfl
@[simp] theorem State.withFetchWord_reads (n w : Nat) : (s.withFetchWord n w).reads = s.reads := rfl
@[simp] theorem State.withFetchWord_turns (n w : Nat) : (s.withFetchWord n w).turns = .host false :: s.turns := rfl

@[simp] theorem State.marked_next (t : State) : s.marked (.next t) = t := rfl
@[simp] theorem State.marked_fault (f : Fault) : s.marked (.fault f) = { s with faultMark := some f } := rfl
@[simp] theorem State.marked_refused (r : Refusal) : s.marked (.refused r) = { s with refusalMark := some r } := rfl

end Sys2Proof.Machine
end

