-- ==== Sys2Proof/Laws/Steps.lean ====
section
/-! SUPPORT. What each kind of step can do, said once: the inversion lemmas of the commands, the host's lines, the block's
steps and the step function. -/

namespace Sys2Proof.Machine

/-- The register-window guard answers a next state exactly when STATE ≠ BUSY and its effect does (R161). -/
theorem unlessBusy_eq_next {s t : State} {k : Host.Outcome State Fault Refusal} :
    unlessBusy s k = .next t ↔ s.state ≠ .busy ∧ k = .next t := by
  unfold unlessBusy; split_ifs with h <;> simp [h]

/-- When STATE ≠ BUSY the guard is its effect. -/
theorem unlessBusy_of_not_busy {s : State} (h : s.state ≠ .busy) (k : Host.Outcome State Fault Refusal) :
    unlessBusy s k = k := if_neg h

/-- While BUSY the guard is the fault (R161). -/
theorem unlessBusy_of_busy {s : State} (h : s.state = .busy) (k : Host.Outcome State Fault Refusal) :
    unlessBusy s k = .fault .busyWrite := if_pos h

/-- No mark is set exactly when both marks are clear (R178). -/
theorem State.unmarked_iff (s : State) : s.unmarked = true ↔ s.faultMark = none ∧ s.refusalMark = none := by
  simp [State.unmarked]

/-- A step answers a next state exactly when no mark is set and the turn does (R178). -/
theorem unlessMarked_eq_next {s t : State} {k : Host.Outcome State Fault Refusal} :
    unlessMarked s k = .next t ↔ s.unmarked = true ∧ k = .next t := by
  rw [State.unmarked_iff]; unfold unlessMarked
  cases s.faultMark <;> cases s.refusalMark <;> simp

/-- With no mark set a step is the turn (R158). -/
theorem step_of_unmarked {s : State} (h : s.unmarked = true) : step s = runTurn s.turn s.dropTurn := by
  obtain ⟨h1, h2⟩ := s.unmarked_iff.1 h
  simp [step, unlessMarked, h1, h2]

/-- The turn of a state whose next listed turn is `t` (R159). -/
theorem State.turn_of_cons {s : State} {t : Turn} {ts : List Turn} (h : s.turns = t :: ts) : s.turn = t := by
  simp [State.turn, h]

/-- With no mark set and a turn listed, a step is that turn (R158, R159). -/
theorem step_of_turns {s : State} {t : Turn} {ts : List Turn} (h : s.unmarked = true) (ht : s.turns = t :: ts) :
    step s = runTurn t { s with turns := ts } := by
  rw [step_of_unmarked h, State.turn_of_cons ht, State.dropTurn, ht, List.tail_cons]

/-- With no mark set and the host to move, a step runs the host's next line (R158). -/
theorem step_of_line {s : State} {n : Bool} {ts : List Turn} {l : HostLine} {ps : List HostLine} (h : s.unmarked = true)
    (ht : s.turns = .host n :: ts) (hp : s.prog = l :: ps) :
    step s = runLine l n { s with prog := ps, turns := ts } := by
  rw [step_of_turns h ht]; simp only [runTurn, hostStep, hp]

/-- A marked state stays stopped (R178). -/
theorem step_of_faultMark {s : State} {f : Fault} (h : s.faultMark = some f) : step s = .fault f := by
  simp [step, unlessMarked, h]

/-- A step that faults sets the mark that names its fault (R178). -/
theorem advance_of_fault {s : State} {f : Fault} (h : step s = .fault f) : advance s = { s with faultMark := some f } := by
  simp [advance, h]

/-- A step that is refused sets the mark that names its refusal (R178). -/
theorem advance_of_refused {s : State} {r : Refusal} (h : step s = .refused r) :
    advance s = { s with refusalMark := some r } := by
  simp [advance, h]

/-- A step that answers a next state goes there. -/
theorem advance_of_next {s t : State} (h : step s = .next t) : advance s = t := by simp [advance, h]

/-- What an instruction of the opcode table can do (R151, R152). -/
theorem exec_eq_next {i : Instr} {s t : State} (h : exec i s = .next t) :
    s.state ≠ .busy ∧ (t = { s with state := .idle, err := .none, job := .none } ∨ t = s.accept .filter) := by
  cases i <;> simp only [exec, execClear, execFilter, unlessBusy_eq_next, Host.Outcome.next.injEq] at h
  · exact ⟨h.1, .inl h.2.symm⟩
  · exact ⟨h.1, .inr h.2.symm⟩

/-- What one line of the host's program can do (R34, R64, R83, R84, R150): the state after it, with what must have held. -/
inductive LineEffect (s : State) : State → Prop where
  /-- A write to STATUS (R34). -/
  | ignored (h : s.state ≠ .busy) : LineEffect s s
  /-- CLEAR (R151). -/
  | clear (h : s.state ≠ .busy) : LineEffect s { s with state := .idle, err := .none, job := .none }
  /-- FILTER or a reserved command (R152, R157). -/
  | accept (h : s.state ≠ .busy) (c : PendingCmd) : LineEffect s (s.accept c)
  /-- A write to an operand register (R34). -/
  | setReg (h : s.state ≠ .busy) (o : OpReg) (v : Reg32) : LineEffect s { s with regs := s.regs.set o v }
  /-- A read (R34, R83). -/
  | saw (v : HostRead) : LineEffect s (s.sawValue v)
  /-- A write of a data word (R64). -/
  | word (a : Nat) (v : PackedWord) (hu : ¬ (s.state = .busy ∧ s.usesWord a = true)) (hw : s.hasWord a = true) :
      LineEffect s { s with mem := s.mem.writeWord a v }
  /-- A write of a data byte (R53, R64). -/
  | byte (a : Nat) (k : Fin 16) (v : Byte) (hu : ¬ (s.state = .busy ∧ s.usesWord a = true)) (hw : s.hasWord a = true) :
      LineEffect s { s with mem := s.mem.writeByte (byteNumber a k.val) v }
  /-- A POLL, its line kept or dropped (R84). -/
  | poll (p : List HostLine) : LineEffect s { s.sawValue (.reg s.status) with prog := p }

/-- What a write to the register window can do (R34, R150). -/
theorem hostWrite_effect {off : Offset} {size : Nat} {v : Reg32} {s t : State} (h : hostWrite off size v s = .next t) :
    LineEffect s t := by
  obtain ⟨hb, h⟩ := unlessBusy_eq_next.1 h
  cases hr : decodeAccess off size with
  | none => simp [hr] at h
  | some r =>
    simp only [hr] at h
    cases r with
    | ctrl =>
      simp only [writeReg, runCtrl] at h
      cases hd : decodeCtrl v with
      | instr i =>
        simp only [hd] at h
        rcases (exec_eq_next h).2 with rfl | rfl
        · exact .clear hb
        · exact .accept hb _
      | reserved u =>
        simp only [hd, execReserved, unlessBusy_of_not_busy hb, Host.Outcome.next.injEq] at h
        exact h ▸ .accept hb _
    | status => simp only [writeReg, Host.Outcome.next.injEq] at h; exact h ▸ .ignored hb
    | op o => simp only [writeReg, Host.Outcome.next.injEq] at h; exact h ▸ .setReg hb o v

/-- What a read of the register window can do (R34). -/
theorem hostRead_eq_next {off : Offset} {size : Nat} {s t : State} (h : hostRead off size s = .next t) :
    ∃ r v, decodeAccess off size = some r ∧ readReg s r = some v ∧ t = s.sawValue (.reg v) := by
  unfold hostRead at h
  cases hr : decodeAccess off size with
  | none => simp [hr] at h
  | some r =>
    cases hv : readReg s r with
    | none => simp [hr, hv] at h
    | some v =>
      simp only [hr, hv, Host.Outcome.next.injEq] at h
      exact ⟨r, v, rfl, hv, h.symm⟩

/-- When a host write of data memory takes effect (R64, R196). -/
theorem hostMemGuard_eq_next {a : Nat} {s t : State} {k : Host.Outcome State Fault Refusal} :
    hostMemGuard a s k = .next t ↔ ¬ (s.state = .busy ∧ s.usesWord a = true) ∧ s.hasWord a = true ∧ k = .next t := by
  unfold hostMemGuard; split_ifs <;> simp_all

/-- What a line of the host's program can do. -/
theorem runLine_effect {l : HostLine} {n : Bool} {s t : State} (h : runLine l n s = .next t) : LineEffect s t := by
  cases l with
  | wr off size v => exact hostWrite_effect h
  | rd off size =>
    obtain ⟨r, v, -, -, rfl⟩ := hostRead_eq_next h
    exact .saw _
  | wrf off d =>
    simp only [runLine, hostWriteFloat] at h
    cases hd : f32ofDecimal d with
    | none => simp [hd] at h
    | some b => simp only [hd] at h; exact hostWrite_effect h
  | memw a v =>
    obtain ⟨hu, hw, h⟩ := hostMemGuard_eq_next.1 h
    rw [Host.Outcome.next.injEq] at h
    exact h ▸ .word _ _ hu hw
  | memr a =>
    simp only [runLine, hostMemRead] at h
    split_ifs at h
    rw [Host.Outcome.next.injEq] at h
    exact h ▸ .saw _
  | memwb a k v =>
    obtain ⟨hu, hw, h⟩ := hostMemGuard_eq_next.1 h
    rw [Host.Outcome.next.injEq] at h
    exact h ▸ .byte _ k _ hu hw
  | memrb a k =>
    simp only [runLine, hostByteRead] at h
    split_ifs at h
    rw [Host.Outcome.next.injEq] at h
    exact h ▸ .saw _
  | poll =>
    simp only [runLine, hostPoll, Host.Outcome.next.injEq] at h
    exact h ▸ .poll _

/-- What a step of the block can do (R153 to R158): the state after it, with what must have held. -/
inductive BlockEffect (s : State) : State → Prop where
  /-- No step: no job, or a stuck command (R158, R179), or a state that no run reaches. -/
  | none : BlockEffect s s
  /-- The command ends with an architectural error (R153, R157). -/
  | error (e : ArchError) (c : PendingCmd) (hj : s.job = .pending c) : BlockEffect s (s.endWithError e)
  /-- The validation passes and the writes begin (R153). -/
  | start (d : Descriptor) (hj : s.job = .pending .filter) (hv : s.verdict = .go d) :
      BlockEffect s { s with job := d.startWriting s.mem }
  /-- One word is written (R155). -/
  | write (R : List PackedWord) (todo : List Nat) (old : List PackedWord) (j : Nat) (ob : Reg32) (v : PackedWord)
      (hj : s.job = .writing R todo old) (hm : j ∈ todo) (ho : s.regs.outBase = some ob) (hv : R[j]? = some v)
      (hw : s.hasWord (ob.toNat + j) = true) :
      BlockEffect s { s with mem := s.mem.writeWord (ob.toNat + j) v, job := .writing R (todo.erase j) old }
  /-- The command completes (R156). -/
  | complete (R : List PackedWord) (old : List PackedWord) (hj : s.job = .writing R [] old) :
      BlockEffect s { s with state := .done, job := .none }

/-- The index a turn of the block writes is one still to be written (R155). -/
theorem pickIndex_mem {todo : List Nat} (h : todo ≠ []) (pick : Nat) : pickIndex todo pick ∈ todo := by
  have hl : 0 < todo.length := List.length_pos_iff.2 h
  have hp : pick % todo.length < todo.length := Nat.mod_lt _ hl
  rw [pickIndex, List.getD_eq_getElem?_getD, List.getElem?_eq_getElem hp, Option.getD_some]
  exact List.getElem_mem hp

/-- Any index still to be written can be the one a turn of the block writes (R155). -/
theorem exists_pickIndex {todo : List Nat} {j : Nat} (h : j ∈ todo) : ∃ pick, pickIndex todo pick = j := by
  obtain ⟨n, hn, rfl⟩ := List.getElem_of_mem h
  refine ⟨n, ?_⟩
  rw [pickIndex, Nat.mod_eq_of_lt hn, List.getD_eq_getElem?_getD, List.getElem?_eq_getElem hn, Option.getD_some]

/-- What a step of the block can do. -/
theorem blockStep_effect {pick : Nat} {s t : State} (h : blockStep pick s = .next t) : BlockEffect s t := by
  unfold blockStep at h
  cases hj : s.job with
  | none => simp only [hj, Host.Outcome.next.injEq] at h; exact h ▸ .none
  | pending c =>
    cases c with
    | reserved v => simp only [hj, Host.Outcome.next.injEq] at h; exact h ▸ .error _ _ hj
    | filter =>
      simp only [hj, validate] at h
      cases hv : s.verdict with
      | unwritten => simp [hv] at h
      | error e => simp only [hv, Host.Outcome.next.injEq] at h; exact h ▸ .error _ _ hj
      | overlap => simp [hv] at h
      | stuck => simp only [hv, Host.Outcome.next.injEq] at h; exact h ▸ .none
      | go d => simp only [hv, Host.Outcome.next.injEq] at h; exact h ▸ .start d hj hv
  | writing R todo old =>
    simp only [hj] at h
    split_ifs at h with ht
    · subst ht
      simp only [Machine.complete, Host.Outcome.next.injEq] at h
      exact h ▸ .complete R old hj
    · unfold blockWrite at h
      cases ho : s.regs.outBase with
      | none => simp only [ho, Host.Outcome.next.injEq] at h; exact h ▸ .none
      | some ob =>
        cases hv : R[pickIndex todo pick]? with
        | none => simp only [ho, hv, Host.Outcome.next.injEq] at h; exact h ▸ .none
        | some v =>
          simp only [ho, hv] at h
          split_ifs at h with hw <;> rw [Host.Outcome.next.injEq] at h
          · exact h ▸ .write R todo old _ ob v hj (pickIndex_mem ht pick) ho hv hw
          · exact h ▸ .none

/-- What a turn can do (R158, R190). -/
inductive TurnEffect (s : State) : State → Prop where
  | idle : TurnEffect s s
  /-- The host ran its next line. -/
  | line (rest : List HostLine) {t : State} (h : LineEffect { s with prog := rest } t) : TurnEffect s t
  | block {t : State} (h : BlockEffect s t) : TurnEffect s t
  | reset : TurnEffect s s.resetBlock

/-- What a turn can do. -/
theorem runTurn_effect {u : Turn} {s t : State} (h : runTurn u s = .next t) : TurnEffect s t := by
  cases u with
  | host n =>
    simp only [runTurn, hostStep] at h
    cases hp : s.prog with
    | nil => simp only [hp, Host.Outcome.next.injEq] at h; exact h ▸ .idle
    | cons l rest => simp only [hp] at h; exact .line rest (runLine_effect h)
  | idle => simp only [runTurn, Host.Outcome.next.injEq] at h; exact h ▸ .idle
  | block k => exact .block (blockStep_effect h)
  | reset => simp only [runTurn, Host.Outcome.next.injEq] at h; exact h ▸ .reset

/-- What a step can do: a turn, from the state with its first listed turn used up. -/
theorem step_effect {s t : State} (h : step s = .next t) : s.unmarked = true ∧ TurnEffect s.dropTurn t := by
  obtain ⟨hm, h⟩ := unlessMarked_eq_next.1 h
  exact ⟨hm, runTurn_effect h⟩

end Sys2Proof.Machine
end

