-- ==== Sys2Proof/Tests/Slice0.lean ====
section
/-! SUPPORT. Tests of the model on the spec's own vectors (95_test_vectors.md), the well-formedness smoke tests, and for
every statement with hypotheses a state that meets them. -/

namespace Sys2Proof.Tests

open Sys2Proof.Machine

/-! Helpers: small states. -/

/-- Seventeen written registers. -/
def regs (w h c d ib iw ob ow : Reg32) (ws : Vector Reg32 9) : Regs :=
  { width := some w, height := some h, channels := some c, divisor := some d, weights := ws.map some, inBase := some ib,
    inWords := some iw, outBase := some ob, outWords := some ow }

/-- The identity weights of 95_test_vectors.md. -/
def identity : Vector Reg32 9 := #v[0, 0, 0, 0, 0x3F800000, 0, 0, 0, 0]

/-- The Gaussian weights of 95_test_vectors.md. -/
def gaussian : Vector Reg32 9 := #v[0x3F800000, 0x40000000, 0x3F800000, 0x40000000, 0x40800000, 0x40000000, 0x3F800000,
  0x40000000, 0x3F800000]

/-- The base setup of the error vectors (95_test_vectors.md 2.6): 5×4×1, identity, divisor 1. -/
def base : Regs := regs 5 4 1 0x3F800000 0x10 2 0x20 2 identity

/-- A 1×1×1 image: one input word at 0x10, one output word at 0x20. -/
def tiny : Regs := regs 1 1 1 0x3F800000 0x10 1 0x20 1 identity

/-- The descriptor of `tiny`. -/
def tinyD : Descriptor := tiny.readDescriptor

/-- Data memory with sample 0x5A in the input word of `tiny`. -/
def mem0 : Memory := [(0x100, 0x5A)]

/-- Data memory after the FILTER of `tiny`. -/
def mem1 : Memory := [(0x100, 0x5A), (0x200, 0x5A)]

/-- A small state over `tiny`. -/
def st (bs : BlockState) (e : ErrCode) (j : Job) (ts : List Turn) (p : List HostLine) : State :=
  { State.reset with state := bs, err := e, regs := tiny, job := j, mem := mem0, memWords := ⟨0x200, by decide⟩, turns := ts, prog := p }

/-- IDLE with turns and a host program. -/
def idle (ts : List Turn) (p : List HostLine) : State := st .idle .none .none ts p

/-- A FILTER over `r` accepted and not validated. -/
def pending (r : Regs) (ts : List Turn) (p : List HostLine) : State :=
  { st .busy .none (.pending .filter) ts p with regs := r }

/-- The FILTER of `tiny` with its one word still to be written. -/
def writing (ts : List Turn) (p : List HostLine) : State := st .busy .none (tinyD.startWriting mem0) ts p

/-- The FILTER of `tiny` with its word written. -/
def written (ts : List Turn) (p : List HostLine) : State :=
  { st .busy .none (.writing (tinyD.result mem1) [] [0]) ts p with mem := mem1 }

/-- The state of an outcome. -/
def nextOf : Host.Outcome State Fault Refusal → Option State
  | .next s => some s
  | .fault _ => none
  | .refused _ => none

/-- The fault of an outcome. -/
def faultOf : Host.Outcome State Fault Refusal → Option Fault
  | .next _ => none
  | .fault f => some f
  | .refused _ => none

/-- STATUS after one step. -/
def statusAfter (s : State) : Option Reg32 := (nextOf (step s)).map State.status

/-! Decoding: words written out from the tables of R23, R25, R70, R71 and R75. -/

/-- R71, V-ENC-1: RSVD = 28 zeros, OP = 0x0. -/
theorem test_decode_clear : decodeCtrl 0b0000000000000000000000000000_0000#32 = .instr .clear := by decide

/-- R71, V-ENC-2: RSVD = 28 zeros, OP = 0x1. -/
theorem test_decode_filter : decodeCtrl 0b0000000000000000000000000000_0001#32 = .instr .filter := by decide

/-- R72, V-ENC-3, V-ENC-4. -/
theorem test_decode_reserved : [0x00000002#32, 0x0000000F#32, 0x00000010#32, 0x00000011#32, 0x80000001#32,
    0xFFFFFFFF#32].all (fun v => decodeCtrl v = .reserved v) = true := by decide

/-- The opcode table's words, and the words as encoded. -/
theorem test_table_words : decodeTableWord 32 0x00000000 = some .clear ∧ decodeTableWord 32 0x00000001 = some .filter ∧
    decodeTableWord 32 0x00000011 = none ∧ encode .clear = 0x00000000#32 ∧ encode .filter = 0x00000001#32 := by decide

/-- R23, R35: the offsets of the register table, and the first offsets that reach no register. -/
theorem test_offsets : decodeOffset 0x00 = some .ctrl ∧ decodeOffset 0x04 = some .status ∧
    decodeOffset 0x08 = some (.op .width) ∧ decodeOffset 0x18 = some (.op (.weight 0)) ∧
    decodeOffset 0x38 = some (.op (.weight 8)) ∧ decodeOffset 0x48 = some (.op .outWords) ∧
    decodeOffset 0x4C = none ∧ decodeOffset 0xFC = none ∧ decodeOffset 0x09 = none ∧ decodeAccess 0x08 2 = none := by decide

/-- R73, V-ENC-14. -/
theorem test_status_words : statusWord .error .shape = 0x00000013#32 ∧ statusWord .error .config = 0x00000023#32 ∧
    statusWord .error .illegal = 0x00000033#32 ∧ statusWord .busy .none = 0x00000001#32 := by decide

/-- R76, V-ENC-5 to V-ENC-10. -/
theorem test_f32val : f32val 0b0_01111111_00000000000000000000000#32 = 1 ∧ f32val 0x41100000 = 9 ∧
    f32val 0x00000001 = 1 / 2 ^ 149 ∧ f32val 0x00800000 = 1 / 2 ^ 126 ∧ f32val 0x7F7FFFFF = (2 ^ 24 - 1) * 2 ^ 104 ∧
    f32val 0x80000000 = 0 := by decide +kernel

/-- R77, V-ENC-10 to V-ENC-12. -/
theorem test_f32_predicates :
    [0x7F800000#32, 0xFF800000#32, 0x7FC00000#32, 0x7F800001#32, 0xFFFFFFFF#32].map f32finite = List.replicate 5 false ∧ f32isZero 0x80000000 = true ∧ f32finite 0x80000000 = true ∧ f32isZero 0x00000001 = false := by
  decide

/-- R78, V-ENC-13, through the descriptor. -/
theorem test_signed_dimensions :
    (regs 0xFFFFFFFF 0x80000000 0x7FFFFFFF 0 0xFFFFFFFF 0 0 0 identity).descriptor.map (fun d => (d.W, d.H, d.C, d.ib)) =
      some (-1, -2 ^ 31, 2 ^ 31 - 1, 2 ^ 32 - 1) := by decide +kernel

/-- R84 and the constants of 93_implementation_defined.md G6. -/
theorem test_wrf_patterns : f32ofDecimal ⟨false, 5, -1⟩ = some 0x3F000000#32 ∧ f32ofDecimal ⟨true, 1, 0⟩ = some 0xBF800000#32 ∧
    f32ofDecimal ⟨false, 16777216, 0⟩ = some 0x4B800000#32 ∧ f32ofDecimal ⟨false, 16777217, 0⟩ = none ∧
    f32ofDecimal ⟨false, 1, -1⟩ = none := by decide +kernel

/-! Well-formedness: one ill-formed term for each check, which the check refuses. -/

/-- A 16-bit write (R35, V-CMD-10). -/
theorem smoke_wr_size : (HostLine.wr 0x08 2 0).wellFormed 0x200 = false := by decide
/-- A read at a reserved offset (R35, V-CMD-10). -/
theorem smoke_rd_reserved : (HostLine.rd 0x4C 4).wellFormed 0x200 = false := by decide
/-- A read at an offset that is no multiple of 4 (R35). -/
theorem smoke_rd_misaligned : (HostLine.rd 0x0A 4).wellFormed 0x200 = false := by decide
/-- A decimal that binary32 cannot represent (R84). -/
theorem smoke_wrf_decimal : (HostLine.wrf 0x14 ⟨false, 1, -1⟩).wellFormed 0x200 = false := by decide +kernel
/-- A WRF at a reserved offset (R35). -/
theorem smoke_wrf_offset : (HostLine.wrf 0xFC ⟨false, 1, 0⟩).wellFormed 0x200 = false := by decide +kernel
/-- Data accesses at a word that does not exist (R50). -/
theorem smoke_mem_range : (HostLine.memw 0x200 0).wellFormed 0x200 = false ∧ (HostLine.memr 0x200).wellFormed 0x200 = false ∧
    (HostLine.memwb 0x200 0 0).wellFormed 0x200 = false ∧ (HostLine.memrb 0x200 15).wellFormed 0x200 = false := by decide
/-- The well-formed counterparts, the instructions among them. -/
theorem smoke_well_formed : (HostLine.wr 0x48 4 0).wellFormed 0x200 = true ∧ (HostLine.rd 0x00 4).wellFormed 0x200 = true ∧
    (HostLine.memw 0x1FF 0).wellFormed 0x200 = true ∧ HostLine.poll.wellFormed 0 = true ∧ Instr.clear.wellFormed = true ∧
    Instr.filter.wellFormed = true := by decide

/-! Single steps and single functions. -/

/-- The host's placing of a table word: the step runs it as the first instruction after reset. -/
theorem test_first_instruction :
    statusAfter (State.reset.withFetchWord 32 0) = some 0 ∧ statusAfter (State.reset.withFetchWord 32 1) = some 1 := by decide

/-- V-CMD-5: CLEAR from CONFIG_ERROR. -/
theorem test_clear_error : statusAfter (st .error .config .none [.host false] [ctrlLine 0]) = some 0 := by decide

/-- V-CMD-7: a command while BUSY. -/
theorem test_filter_busy : faultOf (step (pending tiny [.host false] [ctrlLine 1])) = some .busyWrite := by decide

/-- V-CMD-9: the block's step of a reserved command, every operand register unwritten. -/
theorem test_reserved_status :
    statusAfter { st .busy .none (.pending (.reserved 2)) [.block 0] [] with regs := Regs.unwritten } = some 0x33 := by decide

/-- V-CMD-3, V-ERR-11: reading and validating unwritten registers. -/
theorem test_unwritten : faultOf (step { idle [.host false] [.rd 0x08 4] with regs := Regs.unwritten }) = some .unwritten ∧
    faultOf (step (pending { base with width := none } [.block 0] [])) = some .unwritten := by decide

/-- V-ERR-1 to V-ERR-5 and V-ERR-8 to V-ERR-10: SHAPE_ERROR. -/
theorem test_shape_errors : ∀ r ∈ [{ base with width := some 0 }, { base with height := some 0xFFFFFFFF },
    { base with channels := some 0x80000000 }, { base with inWords := some 1 }, { base with outWords := some 1 },
    { base with width := some 0, divisor := some 0 }, { base with inWords := some 1, divisor := some 0x7FC00000 },
    regs 0x7FFFFFFF 0x7FFFFFFF 0x7FFFFFFF 0x3F800000 0 0xFFFFFFFF 0x100 0xFFFFFFFF identity],
    statusAfter (pending r [.block 0] []) = some 0x13 := by decide +kernel

/-- V-ERR-6, V-ERR-7, V-ERR-13: CONFIG_ERROR. -/
theorem test_config_errors : ∀ r ∈ [{ base with divisor := some 0 }, { base with divisor := some 0x80000000 },
    { base with divisor := some 0x7F800000 }, { base with divisor := some 0xFF800000 },
    { base with divisor := some 0x7FC00000 }, { base with weights := base.weights.set 7 (some 0x7FC00001) },
    { base with outBase := some 0x11, divisor := some 0 }], statusAfter (pending r [.block 0] []) = some 0x23 := by
  decide +kernel

/-- V-ERR-12, V-ERR-14, V-ERR-16: overlap, adjacent ranges, a range past memory. -/
theorem test_ranges : faultOf (step (pending { base with outBase := some 0x11 } [.block 0] [])) = some .overlap ∧
    ((pending { base with outBase := some 0x12 } [.block 0] []).verdict ≠ .overlap) ∧
    (pending { base with inBase := some 0x1FF } [.block 0] []).verdict = .stuck := by decide +kernel

/-- V-COD-1, V-COD-2, V-COD-6. -/
theorem test_index : idx 5 1 4 1 0 = 9 ∧ idx 5 1 0 3 0 = 15 ∧ idx 5 1 1 3 0 = 16 ∧ idx 6 3 5 0 0 = 15 ∧
    unpack [0x00000000000000000000665544332211#128] 2 3 1 0 0 = 0x44#8 := by decide

/-- V-COD-3 and V-COD-5. -/
theorem test_pack : pack (fun x y _ => BitVec.ofNat 8 (5 * y + x)) 5 4 1 =
      [0x0F0E0D0C0B0A09080706050403020100#128, 0x00000000000000000000000013121110#128] ∧
    pack (unpack [0x0F0E0D0C0B0A09080706050403020100#128, 0xFFFFFFFFFFFFFFFFFFFFFFFF13121110#128] 5 1) 5 4 1 =
      [0x0F0E0D0C0B0A09080706050403020100#128, 0x00000000000000000000000013121110#128] := by decide +kernel

/-- V-ENG-5 and V-ENG-13: ties to even, a negative tie. -/
theorem test_rounding : [1, 3, 5, 253, 255].map (fun c : Int => rne ((c : Rat) / 2)) = [0, 2, 2, 126, 128] ∧
    rne (-1 / 2) = 0 ∧ rne (-3 / 2) = -2 := by decide +kernel

/-- V-ENG-14 to V-ENG-17: both boundary policies on the checkerboard. -/
theorem test_boundaries :
    ([(Config.Boundary.replicate, 0), (.replicate, 1), (.zero, 0), (.zero, 1)].map fun (b, x) =>
      (applyWith b (fun x y _ => if (x + y) % 2 = 0 then 255 else 0) 16 16 (fun k => f32val gaussian[k.val]) 16 x 0 0).toNat)
      = [159, 128, 80, 96] := by decide +kernel

/-- V-ENG-23: the kernel is not flipped. -/
theorem test_orientation : ([(1, 1), (2, 2), (0, 0), (2, 0)].map fun (x, y) =>
    (applyGrid (fun x y _ => BitVec.ofNat 8 (10 * (3 * y + x + 1))) 3 3 (fun k => if k = 0 then 1 else 0) 1 x y 0).toNat) =
      [10, 50, 10, 20] := by decide +kernel

/-- V-ENG-20: exact sums. -/
theorem test_exact_sum : macOver (fun k => f32val (#v[0, 0, 0, 0x4B800000, 0x3F800000, 0xCB800000, 0, 0, 0] : Vector Reg32 9)[k.val])
    (fun _ _ => 1) = 1 := by decide +kernel

/-- P2: the box blur. -/
theorem test_box_blur : filterWords [0x000000000000005A50463C32281E140A#128] 3 3 1 (Vector.replicate 9 0x3F800000) 0x41100000 =
    [0x000000000000004D463F39322B251E17#128] := by decide +kernel

/-- P4: two interleaved channels. -/
theorem test_two_channels : filterWords [0x00000000000000000064A064A0640064#128] 2 2 2 gaussian 0x41800000 =
    [0x00000000000000003C64646464643C64#128] := by decide +kernel

/-- V-ENG-22 at the write step, with the word the block writes: `tiny`'s result. -/
theorem test_write_step : (nextOf (step (writing [.block 7] []))).map (fun s => (s.mem, s.status)) = some (mem1, 1) := by
  decide +kernel

/-! Witnesses: for each statement with hypotheses, states and operands that meet them together. -/

theorem wf_mem0 : mem0.wf := by decide

theorem wf_mem1 : mem1.wf := by decide

theorem bound_mem0 : ∀ c ∈ mem0, c.1 < 0x2000 := by decide

theorem bound_mem1 : ∀ c ∈ mem1, c.1 < 0x2000 := by decide

theorem inv_idle (ts : List Turn) (p : List HostLine) : (idle ts p).Inv :=
  ⟨by simp [idle, st], by simp [idle, st], wf_mem0, bound_mem0, trivial⟩

theorem inv_pending (r : Regs) (ts : List Turn) (p : List HostLine) : (pending r ts p).Inv :=
  ⟨by simp [pending, st], by simp [pending, st], wf_mem0, bound_mem0, trivial⟩

theorem verdict_tiny : (idle [] []).verdict = .go tinyD := by decide +kernel

theorem written_word : ∀ j < tinyD.wordCount, j ∉ ([] : List Nat) →
    some (mem1.readWord (tinyD.ob + j)) = (tinyD.result mem1)[j]? := by decide +kernel

theorem inv_writing (ts : List Turn) (p : List HostLine) : (writing ts p).Inv :=
  ⟨by simp [writing, st, Descriptor.startWriting], by simp [writing, st], wf_mem0, bound_mem0, tinyD,
    verdict_tiny, rfl, by decide, by decide, by decide,
    fun j hj hn => absurd (List.mem_range.2 hj) hn, fun j hj => by
      obtain rfl : j = 0 := (by decide : ∀ j ∈ List.range tinyD.wordCount, j = 0) j hj
      rfl⟩

theorem inv_written (ts : List Turn) (p : List HostLine) : (written ts p).Inv :=
  ⟨by simp [written, st], by simp [written, st], wf_mem1, bound_mem1, tinyD,
    verdict_tiny, rfl, by decide, by decide, by decide, written_word, fun _ hj => by simp at hj⟩

/-- An outcome with a state is that state. -/
theorem next_of_isSome {o : Host.Outcome State Fault Refusal} (h : (nextOf o).isSome = true) : ∃ t, o = .next t := by
  cases o <;> simp_all [nextOf]

/-- A state with its fault mark set. -/
def marked : State := { idle [.reset] [] with faultMark := some .overlap }

/-- A state with its refusal mark set. -/
def refused : State := { idle [.reset] [] with refusalMark := some .wrfNotRepresentable }

theorem witness_ResetLeavesSpecValues : (idle [.reset] []).turns = [.reset] ∧ (idle [.reset] []).unmarked = true ∧
    marked.turns = [.reset] ∧ marked.faultMark = some .overlap ∧ refused.turns = [.reset] ∧
    refused.refusalMark = some .wrfNotRepresentable := by decide

theorem witness_ResetWhileWritingKeepsEachWord : (writing [.reset] []).Inv ∧ (writing [.reset] []).unmarked = true ∧
    (writing [.reset] []).turns = [.reset] ∧
    (writing [.reset] []).job = .writing (tinyD.result mem0) (List.range 1) (mem0.readWords tinyD.ob 1) ∧
    (writing [.reset] []).verdict = .go tinyD ∧ (written [.reset] []).Inv ∧
    (written [.reset] []).job = .writing (tinyD.result mem1) [] [0] :=
  ⟨inv_writing _ _, by decide, rfl, rfl, verdict_tiny, inv_written _ _, rfl⟩

theorem witness_StepKeepsInvariant : (writing [.block 0] []).Inv ∧ ∃ t, step (writing [.block 0] []) = .next t :=
  ⟨inv_writing _ _, next_of_isSome (by decide +kernel)⟩

theorem witness_StatusReadsTheTable : (idle [] []).Inv ∧ (idle [] []).state = .idle ∧ (pending tiny [] []).Inv ∧
    (pending tiny [] []).state = .busy ∧ (st .done .none .none [] []).Inv ∧ (st .error .shape .none [] []).Inv ∧
    (st .error .config .none [] []).Inv ∧ (st .error .illegal .none [] []).Inv := by
  refine ⟨inv_idle _ _, rfl, inv_pending _ _ _, rfl, ?_, ?_, ?_, ?_⟩ <;>
  exact ⟨by simp [st], by simp [st], wf_mem0, bound_mem0, trivial⟩

theorem witness_Binary32Value : (0x3F800000#32 = f32pack false 127 0) ∧ (0x807FFFFF#32 = f32pack true 0 (2 ^ 23 - 1)) ∧
    (0x7F7FFFFF#32 = f32pack false 254 (2 ^ 23 - 1)) ∧ (0x00800000#32 = f32pack false 1 0) := by decide

theorem witness_FiniteValueIsZeroOnlyForZeros : f32finite 0x7F7FFFFF = true ∧ f32finite 0x80000000 = true ∧
    f32isZero 0x80000000 = true := by decide

theorem witness_Binary32RoundTrip : f32finite 0x00000001 = true ∧ f32finite 0xFF7FFFFF = true := by decide

theorem witness_DecimalPatternIsExact : f32ofDecimal ⟨true, 5, -1⟩ = some 0xBF000000#32 ∧ f32finite 0x3F000000 = true ∧
    f32val 0x3F000000 = (⟨false, 5, -1⟩ : Decimal).value := by decide +kernel

theorem witness_StepRunsDecodedCommand : (idle [.host false] [ctrlLine 1]).unmarked = true ∧
    (idle [.host false] [ctrlLine 1]).turns = [.host false] ∧ (idle [.host false] [ctrlLine 1]).prog = [ctrlLine 1] ∧
    decodeCtrl 1 = .instr .filter := by decide

theorem witness_AnyTurnMayBeNext : (idle [] []).unmarked = true := by decide

theorem witness_ClearEffect : (st .error .config .none [] []).state ≠ .busy ∧ (pending tiny [] []).state = .busy ∧
    (idle [] []).Inv ∧ (idle [] []).state = .idle := ⟨by decide, by decide, inv_idle _ _, rfl⟩

theorem witness_FilterAcceptEffect : (st .done .none .none [.host true] [ctrlLine 1]).state ≠ .busy ∧
    (st .done .none .none [.host true] [ctrlLine 1]).unmarked = true ∧
    (st .done .none .none [.host true] [ctrlLine 1]).turns = [.host true] ∧
    (st .done .none .none [.host true] [ctrlLine 1]).prog = [ctrlLine 0x00000001] ∧
    (pending tiny [.reset] []).state = .busy ∧
    (nextOf (step (pending tiny [.reset] []))).map State.state = some .idle := by decide

theorem witness_CommandFrame : (∃ t, exec .clear (idle [] []) = .next t) ∧ ∃ t, exec .filter (idle [] []) = .next t :=
  ⟨⟨_, rfl⟩, ⟨_, rfl⟩⟩

theorem witness_ReservedCommandEndsIllegal : (idle [.host false] [ctrlLine 2]).unmarked = true ∧
    (idle [.host false] [ctrlLine 2]).state ≠ .busy ∧ (2 : Reg32) ≠ 0x00000000 ∧ (2 : Reg32) ≠ 0x00000001 ∧
    (0xFFFFFFFF : Reg32) ≠ 0x00000001 ∧ (idle [.host false] [ctrlLine 2]).turns = [.host false] ∧
    (idle [.host false] [ctrlLine 2]).prog = [ctrlLine 2] ∧
    (st .busy .none (.pending (.reserved 2)) [.block 0] []).unmarked = true ∧
    (st .busy .none (.pending (.reserved 2)) [.block 0] []).turns = [.block 0] := by decide

theorem witness_BusyRegisterWriteFaults : (pending tiny [.host false] [.wr 0xFF 2 7]).unmarked = true ∧
    (pending tiny [.host false] [.wr 0xFF 2 7]).state = .busy ∧
    (pending tiny [.host false] [.wr 0xFF 2 7]).turns = [.host false] ∧
    (pending tiny [.host false] [.wr 0xFF 2 7]).prog = [.wr 0xFF 2 7] := by decide

theorem witness_BadAccessFaults : (idle [.host false] [.rd 0x4C 4]).unmarked = true ∧
    (idle [.host false] [.rd 0x4C 4]).turns = [.host false] ∧ (idle [.host false] [.rd 0x4C 4]).prog = [.rd 0x4C 4] ∧
    0x4C ≤ (0x4C : Offset).toNat ∧ (0x09 : Offset).toNat % 4 ≠ 0 ∧ (2 : Nat) ≠ 4 ∧
    (idle [.host false] [.wr 0x09 4 0]).prog = [.wr 0x09 4 0] ∧ (idle [.host false] [.wr 0x09 4 0]).state ≠ .busy ∧
    (idle [.host false] [.wr 0x08 2 0]).prog = [.wr 0x08 2 0] := by decide

theorem witness_RegisterAccessEffects : (idle [.host false] []).unmarked = true ∧
    (idle [.host false] []).turns = [.host false] ∧ (idle [.host false] []).state ≠ .busy ∧
    (idle [.host false] [.wr 0x48 4 9]).prog = [.wr (Reg.op .outWords).offset 4 9] ∧
    (pending tiny [.host false] [.wr 0x00 4 0]).prog = [.wr Reg.ctrl.offset 4 0] ∧
    (pending tiny [.host false] [.wr 0x00 4 0]).state = .busy ∧
    (idle [.host false] [.wr 0x04 4 2]).prog = [.wr Reg.status.offset 4 2] ∧
    (idle [.host false] [.rd 0x28 4]).regs.get (.weight 4) = some 0x3F800000 ∧
    (idle [.host false] [.rd 0x28 4]).prog = [.rd (Reg.op (.weight 4)).offset 4] ∧
    Regs.unwritten.get .width = none ∧ (idle [.host false] [.rd 0x00 4]).prog = [.rd Reg.ctrl.offset 4] ∧
    (idle [.host false] [.rd 0x04 4]).prog = [.rd Reg.status.offset 4] := by decide +kernel

theorem witness_RegistersHoldWhatWasWritten : (∃ t, step (idle [.idle] []) = .next t) ∧
    ¬ (idle [.idle] []).mayWrite .width ∧
    ({ idle [.host false] [.rd 0x08 4] with regs := Regs.unwritten } : State).regs.get .width = none ∧
    (pending tiny [.block 0] []).job = .pending .filter ∧ (pending tiny [.block 0] []).turns = [.block 0] :=
  ⟨⟨_, rfl⟩, fun h => h.elim (fun h => by cases h) (fun ⟨_, _, h, _⟩ => by cases h), rfl, rfl, rfl⟩

theorem witness_ValidationReportsErrors : ({ base with width := some 0 } : Regs).readDescriptor.W ≤ 0 ∧
    ({ base with inWords := some 1 } : Regs).readDescriptor.iw = 1 ∧ base.readDescriptor.wordCount = 2 ∧
    f32isZero ({ base with divisor := some 0 } : Regs).readDescriptor.d = true ∧ 0 < base.readDescriptor.W ∧
    0 < base.readDescriptor.H ∧ 0 < base.readDescriptor.C ∧
    (base.readDescriptor.W * base.readDescriptor.H * base.readDescriptor.C + 15) / 16 ≤ base.readDescriptor.iw ∧
    ({ base with width := some 0 } : Regs).descriptor = some ({ base with width := some 0 } : Regs).readDescriptor ∧
    (pending base [.block 0] []).unmarked = true ∧ (pending base [.block 0] []).turns = [.block 0] := by decide +kernel

theorem witness_ValidationFaultsAndStuck :
    base.descriptor = some base.readDescriptor ∧ base.readDescriptor.archError = none ∧
    (∃ i < 2, ∃ j < 2, ({ base with outBase := some 0x11 } : Regs).readDescriptor.ib + i =
      ({ base with outBase := some 0x11 } : Regs).readDescriptor.ob + j) ∧
    (∀ i < 2, ∀ j < 2, ({ base with inBase := some 0x1FF } : Regs).readDescriptor.ib + i ≠
      ({ base with inBase := some 0x1FF } : Regs).readDescriptor.ob + j) ∧
    0x200 < ({ base with inBase := some 0x1FF } : Regs).readDescriptor.ib + 2 := by decide +kernel

/-- Adjacent ranges that end where data memory ends. -/
def adjacent : Regs := { base with inBase := some 0x1FC, outBase := some 0x1FE }

theorem witness_ValidationStartsWriting : adjacent.descriptor = some adjacent.readDescriptor ∧
    adjacent.readDescriptor.archError = none ∧
    (∀ i < adjacent.readDescriptor.wordCount, ∀ j < adjacent.readDescriptor.wordCount,
      adjacent.readDescriptor.ib + i ≠ adjacent.readDescriptor.ob + j) ∧
    adjacent.readDescriptor.ib + adjacent.readDescriptor.wordCount ≤ (pending adjacent [.block 0] []).memWords.val ∧
    adjacent.readDescriptor.ob + adjacent.readDescriptor.wordCount ≤ (pending adjacent [.block 0] []).memWords.val ∧
    (pending adjacent [.block 0] []).unmarked = true ∧ (pending adjacent [.block 0] []).turns = [.block 0] ∧
    (pending adjacent [.block 0] []).job = .pending .filter := by decide +kernel

/-- A stuck FILTER. -/
def stuck : State := pending { base with inBase := some 0x1FF } [.block 0] []

theorem witness_StuckUntilReset : stuck.state = .busy ∧ stuck.job = .pending .filter ∧ stuck.verdict = .stuck ∧
    (nextOf (step stuck)).isSome = true ∧ stuck.turn ≠ .reset := by decide +kernel

theorem witness_BusyEndsByBlockOrReset : (pending tiny [.host false] [.poll]).state = .busy ∧
    (∃ t, step (pending tiny [.host false] [.poll]) = .next t) ∧ (pending tiny [.host false] [.poll]).turn ≠ .reset ∧
    ∀ pick, (pending tiny [.host false] [.poll]).turn ≠ .block pick :=
  ⟨rfl, ⟨_, rfl⟩, by decide, fun _ h => by cases h⟩

theorem witness_StateChangesOnlyAsListed :
    (statusAfter (pending tiny [.reset] []) = some 0 ∧ (pending tiny [.reset] []).status = 1) ∧
    (statusAfter (idle [.host false] [ctrlLine 1]) = some 1 ∧ (idle [.host false] [ctrlLine 1]).status = 0) ∧
    (statusAfter (pending { base with width := some 0 } [.block 0] []) = some 0x13) ∧
    (statusAfter (written [.block 0] []) = some 2 ∧ (written [.block 0] []).status = 1) := by decide +kernel

theorem witness_WriteStepWritesOneWord : (writing [.block 3] []).Inv ∧ (writing [.block 3] []).unmarked = true ∧
    (writing [.block 3] []).job = .writing (tinyD.result mem0) (List.range 1) (mem0.readWords tinyD.ob 1) ∧
    (writing [.block 3] []).verdict = .go tinyD ∧ List.range 1 ≠ [] ∧ (writing [.block 3] []).turns = [.block 3] :=
  ⟨inv_writing _ _, by decide, rfl, verdict_tiny, by decide, rfl⟩

theorem witness_CompleteStepReportsDone : (written [.block 0] []).Inv ∧ (written [.block 0] []).unmarked = true ∧
    (written [.block 0] []).turns = [.block 0] ∧ (written [.block 0] []).job = .writing (tinyD.result mem1) [] [0] :=
  ⟨inv_written _ _, by decide, rfl, rfl⟩

theorem witness_BlockWritesOnlyUsedOutput : (writing [.block 0] []).Inv ∧ (writing [.block 0] []).turn = .block 0 ∧
    (∃ t, step (writing [.block 0] []) = .next t) ∧ (writing [.block 0] []).regs.descriptor = some tinyD ∧
    (writing [.block 0] []).verdict = .go tinyD ∧
    (∀ R todo old, (pending tiny [.block 0] []).job ≠ .writing R todo old) ∧
    ∃ t, step (pending tiny [.block 0] []) = .next t :=
  ⟨inv_writing _ _, rfl, next_of_isSome (by decide +kernel), by decide +kernel, verdict_tiny,
    fun _ _ _ h => Job.noConfusion h, next_of_isSome (by decide +kernel)⟩

theorem witness_DoneMeansResultInMemory : (written [.block 0] []).Inv ∧
    (∃ t, step (written [.block 0] []) = .next t ∧ t.state = .done) ∧ (written [.block 0] []).state ≠ .done :=
  ⟨inv_written _ _, ⟨_, rfl, rfl⟩, by decide⟩

/-- FILTER of `tiny`, written by the host and run by the block in three steps. -/
def filterRun : State := idle (.host false :: ([0, 0, 0].map Turn.block ++ [])) [ctrlLine 0x00000001]

/-- FILTER with a zero divisor: the block reports in one step. -/
def errorRun : State :=
  { idle (.host false :: ([0].map Turn.block ++ [])) [ctrlLine 0x00000001] with regs := { tiny with divisor := some 0 } }

theorem witness_FilterRunEqualsAtomic : filterRun.Inv ∧ filterRun.unmarked = true ∧ filterRun.state ≠ .busy ∧
    filterRun.regs.descriptor = some tinyD ∧ filterRun.verdict = .go tinyD ∧ [0, 0, 0].length = 1 + tinyD.wordCount + 1 ∧
    errorRun.Inv ∧ errorRun.regs.descriptor = some ({ tiny with divisor := some 0 } : Regs).readDescriptor ∧
    ({ tiny with divisor := some 0 } : Regs).readDescriptor.archError = some .config :=
  ⟨inv_idle _ _, by decide, by decide, by decide +kernel, verdict_tiny, by decide,
    ⟨by simp [errorRun, idle, st], by simp [errorRun, idle, st], wf_mem0, bound_mem0, trivial⟩, by decide +kernel,
    by decide +kernel⟩

theorem witness_EveryWriteOrderAdmitted : (pending base [] []).Inv ∧ (pending base [] []).unmarked = true ∧
    (pending base [] []).state = .busy ∧ (pending base [] []).job = .pending .filter ∧
    (pending base [] []).verdict = .go base.readDescriptor ∧ [1, 0].Perm (List.range base.readDescriptor.wordCount) :=
  ⟨inv_pending _ _ _, by decide, rfl, rfl, by decide +kernel, by decide⟩

theorem witness_ResultDependsOnDescriptorAndInput : (pending tiny [.block 0] []).job = .pending .filter ∧
    (pending tiny [.block 0] []).turn = .block 0 ∧ (pending tiny [.block 0] []).verdict = .go tinyD ∧
    ({ pending tiny [.block 1] [.poll] with mem := mem1 } : State).verdict = .go tinyD ∧
    (∀ j < tinyD.wordCount, mem0.readWord (tinyD.ib + j) = mem1.readWord (tinyD.ib + j)) ∧
    (nextOf (step (pending tiny [.block 0] []))).isSome = true ∧
    (nextOf (step { pending tiny [.block 1] [.poll] with mem := mem1 })).isSome = true := by decide +kernel

/-- V-CMD-6 and R64: a read of a used output word before validation can return the final value. -/
theorem test_early_read : (nextOf (step (pending tiny [.host true] [.memr 0x20]))).map State.reads = some [.word 0x5A] ∧
    (nextOf (step (pending tiny [.host false] [.memr 0x20]))).map State.reads = some [.word 0] := by decide +kernel

theorem witness_HostDataAccessWhileBusy : (writing [.host true] [.memr 0x20]).Inv ∧
    (writing [.host true] [.memr 0x20]).unmarked = true ∧
    (writing [.host true] [.memr 0x20]).job = .writing (tinyD.result mem0) (List.range 1) (mem0.readWords tinyD.ob 1) ∧
    (writing [.host true] [.memr 0x20]).verdict = .go tinyD ∧
    0 < tinyD.wordCount ∧ (0x20 : Reg32).toNat = tinyD.ob + 0 ∧ (0x10 : Reg32).toNat = tinyD.ib + 0 ∧
    (∀ j < tinyD.wordCount, (0x21 : Reg32).toNat ≠ tinyD.ib + j ∧ (0x21 : Reg32).toNat ≠ tinyD.ob + j) ∧
    (0x1FF : Reg32).toNat < (writing [.host true] [.memr 0x20]).memWords.val ∧
    (pending tiny [.host true] [.memr 0x20]).Inv ∧ (pending tiny [.host true] [.memr 0x20]).verdict = .go tinyD ∧
    (pending tiny [.host true] [.memr 0x20]).job = .pending .filter :=
  ⟨inv_writing _ _, by decide, rfl, verdict_tiny, by decide, by decide, by decide, by decide, by decide,
    inv_pending _ _ _, verdict_tiny, rfl⟩

/-- A FILTER with every weight unwritten and two negative dimensions: N = 17, NW = 2. -/
def halfWritten : Regs :=
  { Regs.unwritten with width := some 0xFFFFFFFF, height := some 0xFFFFFFEF, channels := some 1, inBase := some 0x10,
                        outBase := some 0x20 }

theorem witness_UsedRangesAreGuardedWhileBusy : (pending halfWritten [.host false] [.memw 0x21 1]).unmarked = true ∧
    (pending halfWritten [.host false] [.memw 0x21 1]).state = .busy ∧
    (pending halfWritten [.host false] [.memw 0x21 1]).job = .pending .filter ∧
    halfWritten.get .width = some 0xFFFFFFFF ∧ halfWritten.get .height = some 0xFFFFFFEF ∧
    halfWritten.get .channels = some 1 ∧ halfWritten.get .inBase = some 0x10 ∧ halfWritten.get .outBase = some 0x20 ∧
    (1 : Int) < ((0xFFFFFFFF : Reg32).toInt * (0xFFFFFFEF : Reg32).toInt * (1 : Reg32).toInt + 15) / 16 ∧
    (0x21 : Reg32).toNat = (0x20 : Reg32).toNat + 1 ∧ (0x11 : Reg32).toNat = (0x10 : Reg32).toNat + 1 ∧
    (pending halfWritten [.host false] [.memw 0x21 1]).turns = [.host false] ∧
    (writing [] []).job = .writing (tinyD.result mem0) (List.range 1) (mem0.readWords tinyD.ob 1) :=
  ⟨by decide, rfl, rfl, rfl, rfl, rfl, rfl, rfl, by decide +kernel, by decide, by decide, rfl, rfl⟩

/-- R51, R196: the used ranges need the dimensions and the base alone, and end after NW words. -/
theorem test_guard_half_written :
    [0x10, 0x11, 0x20, 0x21].map (fun a => faultOf (step (pending halfWritten [.host false] [.memw a 1]))) =
      List.replicate 4 (some .busyMem) ∧
    [0x0F, 0x12, 0x1F, 0x22].map (fun a => faultOf (step (pending halfWritten [.host false] [.memw a 1]))) =
      List.replicate 4 none := by decide +kernel

theorem witness_HostDataAccessBesideOtherCommands : (pending halfWritten [.host false] [.memw 0x22 1]).Inv ∧
    (pending halfWritten [.host false] [.memw 0x22 1]).unmarked = true ∧
    (pending halfWritten [.host false] [.memw 0x22 1]).state = .busy ∧
    (0x22 : Reg32).toNat < (pending halfWritten [.host false] [.memw 0x22 1]).memWords.val ∧
    (pending halfWritten [.host false] [.memw 0x22 1]).verdict = .unwritten ∧
    (pending halfWritten [] []).usesWord 0x22 = false ∧
    (st .busy .none (.pending (.reserved 2)) [.host true] [.memwb 0x20 15 1]).Inv ∧
    (st .busy .none (.pending (.reserved 2)) [.host true] [.memwb 0x20 15 1]).job = .pending (.reserved 2) :=
  ⟨inv_pending _ _ _, by decide, rfl, by decide, by decide +kernel, by decide +kernel,
    ⟨by simp [st], by simp [st], wf_mem0, bound_mem0, trivial⟩, rfl⟩

theorem witness_IdleTurnsChangeNothing : (idle [.idle] [.poll]).turns = [.idle] ∧ (idle [.idle] [.poll]).unmarked = true ∧
    (idle [.host true] []).turns = [.host true] ∧ (idle [.host true] []).prog = [] ∧
    (idle [.block 3] [.poll]).turns = [.block 3] ∧ (idle [.block 3] [.poll]).job = .none := by decide

theorem witness_InvariantHoldsAtReset : Memory.wf [] ∧
    ∀ c ∈ ([] : Memory), c.1 < byteNumber (State.launch []).memWords.val 0 := ⟨by decide, fun _ h => by simp at h⟩

theorem witness_ApplyRoundsTheScaledSum : (0 : Nat) < 1 ∧ (16 : Rat) ≠ 0 ∧ (-1 : Rat) ≠ 0 := by
  refine ⟨by decide, by norm_num, by norm_num⟩

theorem witness_HostDataAccess : (idle [.host false] [.memw 0x1FF 1]).Inv ∧
    (idle [.host false] [.memw 0x1FF 1]).unmarked = true ∧ (idle [.host false] [.memw 0x1FF 1]).state ≠ .busy ∧
    (0x1FF : Reg32).toNat < (idle [.host false] [.memw 0x1FF 1]).memWords.val ∧
    (idle [.host false] [.memr 0x200]).memWords.val ≤ (0x200 : Reg32).toNat ∧
    (idle [.host false] [.memwb 0x1FF 15 1]).prog = [.memwb 0x1FF 15 1] ∧
    (idle [.host false] [.memrb 0x200 15]).prog = [.memrb 0x200 15] :=
  ⟨inv_idle _ _, by decide, by decide, by decide, by decide, rfl, rfl⟩

theorem witness_PollRepeatsWhileBusy : (pending tiny [.host false] [.poll]).state = .busy ∧
    (pending tiny [.host false] [.poll]).prog = [.poll] ∧ (idle [.host false] [.poll]).state ≠ .busy ∧
    (idle [.host false] [.poll]).unmarked = true := by decide

theorem witness_WrfWritesThePattern : (idle [.host false] [.wrf 0x14 ⟨false, 5, -1⟩]).prog = [.wrf 0x14 ⟨false, 5, -1⟩] ∧
    (idle [.host false] [.wrf 0x14 ⟨false, 5, -1⟩]).unmarked = true ∧
    f32ofDecimal ⟨false, 5, -1⟩ = some 0x3F000000#32 ∧ f32ofDecimal ⟨false, 1, -1⟩ = none := by decide +kernel

theorem witness_MarksAreSticky : step (pending tiny [.host false] [ctrlLine 0]) = .fault .busyWrite ∧
    (∃ t, step (idle [] []) = .next t) ∧ marked.faultMark = some .overlap ∧
    refused.refusalMark = some .wrfNotRepresentable ∧ step refused = .refused .wrfNotRepresentable :=
  ⟨rfl, ⟨_, rfl⟩, rfl, rfl, rfl⟩

/-- The grids of the codec and engine statements: `W = 5`, `H = 4`, `C = 2`, at the first and the last coordinates and flat
index. -/
theorem witness_grids : (0 : Nat) < 5 ∧ (0 : Nat) < 4 ∧ (0 : Nat) < 2 ∧ (4 : Nat) < 5 ∧ (3 : Nat) < 4 ∧ (1 : Nat) < 2 ∧
    39 < 5 * 4 * 2 ∧ (-1 : Int) ∈ [-1, 0, (1 : Int)] := by decide

/-- A word of a 1×1×1 image with a nonzero trailing lane. -/
theorem witness_PackUnpackNormalises : [0xFF5A#128].length = (1 * 1 * 1 + 15) / 16 ∧ sampleAt [0xFF5A#128] 1 ≠ 0x00 ∧
    1 < 16 * [0xFF5A#128].length ∧ 1 * 1 * 1 ≤ 1 := by decide

theorem witness_PackedTrailingLanesAreZero : (∃ w, (pack (fun _ _ _ => 0x5A) 1 1 1)[0]? = some w) ∧ 15 < 16 ∧
    1 * 1 * 1 ≤ 16 * 0 + 1 ∧ ∃ w, (filterWords [0x5A] 1 1 1 identity 0x3F800000)[0]? = some w :=
  ⟨⟨_, rfl⟩, by decide, by decide, ⟨_, rfl⟩⟩

theorem witness_TrailingInputLanesIgnored : (∀ i < 1 * 1 * 1, sampleAt [0xFF5A#128] i = sampleAt [0x5A#128, 7] i) ∧
    [0xFF5A#128] ≠ [0x5A#128, 7] := by decide

theorem witness_MacIsOrderIndependent : neighbours.reverse.Perm neighbours := List.reverse_perm _

theorem witness_ClampSaturates : (-1 : Int) < 0 ∧ (255 : Int) < 256 ∧ (0 : Int) ≤ 255 ∧ (255 : Int) ≤ 255 := by decide

theorem witness_FixedResults : (1 : Rat) ≠ 0 ∧ (-1 : Rat) ≠ 0 ∧ (-1 : Rat) < 0 ∧
    (∀ k : Fin 9, k ≠ 4 → (fun k : Fin 9 => if k = 4 then (1 : Rat) else 0) k = 0) ∧
    (∀ k : Fin 9, 0 ≤ (fun k : Fin 9 => if k = 4 then (1 : Rat) else 0) k) := by
  refine ⟨by norm_num, by norm_num, by norm_num, fun k h => by simp [h], fun k => ?_⟩
  dsimp only
  split_ifs <;> norm_num

theorem witness_SumRange : ∀ k : Fin 9, f32finite (Vector.replicate 9 0x7F7FFFFF#32)[k.val] = true := by decide

end Sys2Proof.Tests
end

section
/-! The engine's arithmetic (R12, R124 to R127): rounding to nearest even, saturation, and MAC as the sum of its nine products. -/

namespace Sys2Proof.Machine

/-- `rne` is the floor or one more, on the nearer side, the even one at the halfway point (R12). -/
theorem rne_nearest_even (q : Rat) : |q - rne q| < 1 / 2 ∨ (|q - rne q| = 1 / 2 ∧ rne q % 2 = 0) := by
  have hle : (q.floor : Rat) ≤ q := Int.floor_le q
  have hlt : q < q.floor + 1 := Int.lt_floor_add_one q
  have below : |q - q.floor| = q - q.floor := abs_of_nonneg (by linarith)
  have above : |q - (q.floor + 1 : Int)| = 1 - (q - q.floor) := by
    rw [abs_sub_comm, abs_of_nonneg] <;> push_cast <;> linarith
  unfold rne
  split_ifs with h1 h2 h3
  · exact .inl (by rwa [below])
  · exact .inl (by rw [above]; linarith)
  · exact .inr ⟨by rw [below]; linarith, h3⟩
  · exact .inr ⟨by rw [above]; linarith, by omega⟩

/-- At most one integer is nearest to `q` with ties to even: two candidates are at most 1 apart, and exactly 1 apart only
when both tie, so that both are even (R12). -/
theorem nearest_even_unique {q : Rat} {m n : Int} (hm : |q - m| < 1 / 2 ∨ (|q - m| = 1 / 2 ∧ m % 2 = 0))
    (hn : |q - n| < 1 / 2 ∨ (|q - n| = 1 / 2 ∧ n % 2 = 0)) : m = n := by
  have dist : |((m - n : Int) : Rat)| ≤ |q - m| + |q - n| := by
    rw [abs_sub_comm q m]
    push_cast
    exact abs_sub_le _ q _
  have hm' : |q - m| ≤ 1 / 2 := hm.elim le_of_lt fun h => h.1.le
  have hn' : |q - n| ≤ 1 / 2 := hn.elim le_of_lt fun h => h.1.le
  by_cases tie : |q - m| = 1 / 2 ∧ |q - n| = 1 / 2
  · have em : m % 2 = 0 := (hm.resolve_left tie.1.not_lt).2
    have en : n % 2 = 0 := (hn.resolve_left tie.2.not_lt).2
    have : |m - n| ≤ 1 := by exact_mod_cast (show |((m - n : Int) : Rat)| ≤ 1 by linarith)
    rw [abs_le] at this
    omega
  · have : |((m - n : Int) : Rat)| < 1 := by
      rcases not_and_or.1 tie with h | h
      · linarith [lt_of_le_of_ne hm' h]
      · linarith [lt_of_le_of_ne hn' h]
    have : |m - n| < 1 := by exact_mod_cast this
    rw [Int.abs_lt_one_iff] at this
    omega

/-- `rne q` is the only integer nearest to `q` with ties to even (R12). -/
theorem rne_eq_iff (q : Rat) (n : Int) : rne q = n ↔ |q - n| < 1 / 2 ∨ (|q - n| = 1 / 2 ∧ n % 2 = 0) :=
  ⟨fun h => h ▸ rne_nearest_even q, nearest_even_unique (rne_nearest_even q)⟩

/-- CLAMP as a number (R126). -/
theorem toNat_clamp (r : Int) : ((clamp r).toNat : Int) = min (max r 0) 255 := by
  simp only [clamp, clampI, Config.outMin, Config.outMax, BitVec.toNat_ofNat]
  omega

/-- MAC is the sum of its nine products, in the order of the weights (R81, R124). -/
theorem macOver_eq_sum (wv : Fin 9 → Rat) (g : Int → Int → Int) :
    macOver wv g = wv 0 * g (-1) (-1) + wv 1 * g 0 (-1) + wv 2 * g 1 (-1) + wv 3 * g (-1) 0 + wv 4 * g 0 0 +
      wv 5 * g 1 0 + wv 6 * g (-1) 1 + wv 7 * g 0 1 + wv 8 * g 1 1 := by
  rw [← zero_add (wv 0 * (g (-1) (-1) : Rat))]
  rfl

/-- APPLY is MAC over the replicated neighbourhood, divided, rounded and saturated (R6, R127). -/
theorem toNat_applyGrid (G : Grid) (W H : Nat) (wv : Fin 9 → Rat) (dv : Rat) (x y c : Nat) :
    ((applyGrid G W H wv dv x y c).toNat : Int) = min (max (rne (macOver wv (gather G W H x y c) / dv)) 0) 255 :=
  toNat_clamp _

end Sys2Proof.Machine
end

section
/-! UNPACK after PACK (R100, R103, R106): the flat index of an in-range coordinate is in range and gives the coordinate back. -/

namespace Sys2Proof.Machine

/-- The column of a flat index (R100). -/
theorem idxX_idx {W C x c : Nat} (y : Nat) (hx : x < W) (hc : c < C) : idxX W C (idx W C x y c) = x := by
  rw [idxX, idx_div W C x y c hc, Nat.mul_comm, Nat.mul_add_mod, Nat.mod_eq_of_lt hx]

/-- The row of a flat index (R100). -/
theorem idxY_idx {W C x c : Nat} (y : Nat) (hx : x < W) (hc : c < C) : idxY W C (idx W C x y c) = y := by
  rw [idxY, idx_div W C x y c hc, Nat.mul_comm, Nat.mul_add_div (by omega), Nat.div_eq_of_lt hx, Nat.add_zero]

/-- The channel of a flat index (R100). -/
theorem idxC_idx (W : Nat) {C c : Nat} (x y : Nat) (hc : c < C) : idxC C (idx W C x y c) = c := by
  rw [idxC, idx, Nat.mul_comm, Nat.mul_add_mod, Nat.mod_eq_of_lt hc]

/-- The flat index of an in-range coordinate is below the number of samples (R100, R101). -/
theorem idx_lt_gridSamples {W H C x y c : Nat} (hx : x < W) (hy : y < H) (hc : c < C) :
    idx W C x y c < gridSamples W H C := by
  have pixel : y * W + x < W * H := by
    calc y * W + x < (y + 1) * W := by rw [Nat.succ_mul]; omega
      _ ≤ W * H := by rw [Nat.mul_comm]; exact Nat.mul_le_mul_left W hy
  calc (y * W + x) * C + c < (y * W + x + 1) * C := by rw [Nat.succ_mul]; omega
    _ ≤ W * H * C := Nat.mul_le_mul_right C pixel

/-- The samples of a grid fit into its words (R101). -/
theorem gridSamples_le_gridWords (W H C : Nat) : gridSamples W H C ≤ 16 * gridWords W H C := by
  simp only [gridWords, Config.samplesPerWord]; omega

/-- UNPACK gives back what PACK was given, at in-range coordinates (R103, R106). -/
theorem unpack_pack (G : Grid) {W H C x y c : Nat} (hx : x < W) (hy : y < H) (hc : c < C) :
    unpack (pack G W H C) W C x y c = G x y c := by
  have hi : idx W C x y c < gridSamples W H C := idx_lt_gridSamples hx hy hc
  rw [unpack, sampleAt_pack G W H C (hi.trans_le (gridSamples_le_gridWords W H C)), packByte, if_pos hi,
    idxX_idx y hx hc, idxY_idx y hx hc, idxC_idx W x y hc]

/-- FILTERWORDS holds APPLY's samples of the unpacked input (R154). -/
theorem unpack_filterWords (IN : List PackedWord) (ws : Vector Reg32 9) (d : Reg32) {W H C x y c : Nat} (hx : x < W)
    (hy : y < H) (hc : c < C) : unpack (filterWords IN W H C ws d) W C x y c =
      applyGrid (unpack IN W C) W H (fun k => f32val ws[k.val]) (f32val d) x y c :=
  unpack_pack _ hx hy hc

end Sys2Proof.Machine
end

section
/-! The scope's statements about rounding (R12) and about what APPLY computes (R125 to R127, R154). -/

namespace Sys2Proof.Proofs
open Sys2Proof.Machine

/-- Settles O51: `rne q` has the nearest-even property, and no two integers have it. -/
theorem roundsToNearestEven : Obligations.RoundsToNearestEven :=
  ⟨rne_eq_iff, fun _ _ _ => rfl⟩

/-- Settles O59: the integer is the `rne` of MAC's quotient; the words are APPLY's by UNPACK after PACK. -/
theorem applyRoundsTheScaledSum : Obligations.ApplyRoundsTheScaledSum := by
  refine ⟨fun G W H x y c wv dv g _ _ _ hg => ?_, fun IN W H C ws d x y c hx hy hc => unpack_filterWords IN ws d hx hy hc⟩
  have sample : ∀ dx dy, g dx dy = gather G W H x y c dx dy := fun dx dy => by
    rw [hg, gather, Int.cast_natCast, clampI, clampI]
  refine ⟨macOver wv (gather G W H x y c) / dv, rne (macOver wv (gather G W H x y c) / dv), ?_, rne_nearest_even _,
    toNat_applyGrid G W H wv dv x y c⟩
  simp only [macOver_eq_sum, sample]

end Sys2Proof.Proofs
end

section
/-! The rules of a register access (R23, R33 to R35): which register an offset names, what a read and a write of it do, and which
steps leave the operand registers as they are (R153, R158). -/

namespace Sys2Proof.Machine

/-- The offset of a register decodes to it (R23). -/
@[simp] theorem decodeOffset_offset (r : Reg) : decodeOffset r.offset = some r := by
  rcases r with _ | _ | r
  · rfl
  · rfl
  · cases r
    case weight k => revert k; decide
    all_goals rfl

/-- An offset decodes to no register but the one whose offset it is (R23). -/
theorem offset_of_decodeOffset {o : Offset} {r : Reg} (h : decodeOffset o = some r) : r.offset = o := by
  unfold decodeOffset at h
  split at h
  case h_20 => cases h
  all_goals
    next ho =>
      cases h
      exact BitVec.eq_of_toNat_eq ho.symm

/-- The offsets of the window that name no register (R35). -/
theorem decodeOffset_eq_none (o : Offset) : decodeOffset o = none ↔ o.toNat % 4 ≠ 0 ∨ 0x4C ≤ o.toNat := by
  unfold decodeOffset
  split
  case h_20 => simp only [imp_false, true_iff] at *; omega
  all_goals
    next ho => simp [ho]

/-- The bad accesses (R35). -/
theorem decodeAccess_eq_none (o : Offset) (size : Nat) :
    decodeAccess o size = none ↔ size ≠ 4 ∨ o.toNat % 4 ≠ 0 ∨ 0x4C ≤ o.toNat := by
  unfold decodeAccess
  split_ifs with h
  · simp [h, decodeOffset_eq_none]
  · simp [h]

/-- A 32-bit access at a register's offset reaches it (R23). -/
@[simp] theorem decodeAccess_offset (r : Reg) : decodeAccess r.offset 4 = some r := decodeOffset_offset r

/-- Only a 32-bit access reaches a register (R35). -/
theorem size_of_decodeAccess {o : Offset} {size : Nat} {r : Reg} (h : decodeAccess o size = some r) : size = 4 := by
  unfold decodeAccess at h
  split_ifs at h with hs
  exact hs

/-- The bus address of an offset lies in the window, at that offset (R83). -/
theorem windowOffset_regAddress (o : Offset) : windowOffset Config.regBase (regAddress o) = some o := by
  have hin : Config.regBase ≤ regAddress o ∧ regAddress o < Config.regBase + 256 := by
    unfold regAddress; omega
  rw [windowOffset, if_pos hin, regAddress, Nat.add_sub_cancel_left, BitVec.ofNat_toNat, BitVec.setWidth_eq]

variable {s t : State}

/-- A read of the register window that names no register (R35). -/
theorem hostRead_bad {off : Offset} {size : Nat} (h : decodeAccess off size = none) :
    hostRead off size s = .fault .badAccess := by
  simp only [hostRead, h]

/-- A write of the register window that names no register, when STATE ≠ BUSY (R35). -/
theorem hostWrite_bad {off : Offset} {size : Nat} (hb : s.state ≠ .busy) (h : decodeAccess off size = none) (v : Reg32) :
    hostWrite off size v s = .fault .badAccess := by
  simp only [hostWrite, unlessBusy_of_not_busy hb, h]

/-- A read of a register that holds a value (R34). -/
theorem hostRead_offset {r : Reg} {v : Reg32} (h : readReg s r = some v) :
    hostRead r.offset 4 s = .next (s.sawValue (.reg v)) := by
  simp only [hostRead, decodeAccess_offset, h]

/-- A read of an unwritten register (R33). -/
theorem hostRead_offset_unwritten {r : Reg} (h : readReg s r = none) : hostRead r.offset 4 s = .fault .unwritten := by
  simp only [hostRead, decodeAccess_offset, h]

/-- A write of a register when STATE ≠ BUSY (R34). -/
theorem hostWrite_offset (hb : s.state ≠ .busy) (r : Reg) (v : Reg32) : hostWrite r.offset 4 v s = writeReg r v s := by
  simp only [hostWrite, unlessBusy_of_not_busy hb, decodeAccess_offset]

/-- A write of the register window that goes on was made when STATE ≠ BUSY, and wrote the register it reached (R34, R35). -/
theorem hostWrite_eq_next {off : Offset} {size : Nat} {v : Reg32} (h : hostWrite off size v s = .next t) :
    s.state ≠ .busy ∧ ∃ r, decodeAccess off size = some r ∧ writeReg r v s = .next t := by
  obtain ⟨hb, h⟩ := unlessBusy_eq_next.1 h
  cases hr : decodeAccess off size with
  | none => simp [hr] at h
  | some r => exact ⟨hb, r, rfl, by simpa only [hr] using h⟩

/-- What a command written to CTRL makes of STATE, and that it writes no operand register (R150 to R152, R157). -/
theorem runCtrl_eq_next {v : Reg32} (h : runCtrl v s = .next t) :
    ((decodeCtrl v = .instr .clear ∧ t.state = .idle) ∨ (decodeCtrl v ≠ .instr .clear ∧ t.state = .busy)) ∧
      t.regs = s.regs := by
  unfold runCtrl at h
  cases hd : decodeCtrl v with
  | instr i =>
    simp only [hd] at h
    cases i with
    | clear =>
      obtain ⟨-, h⟩ := unlessBusy_eq_next.1 h
      cases h
      exact ⟨.inl ⟨rfl, rfl⟩, rfl⟩
    | filter =>
      obtain ⟨-, h⟩ := unlessBusy_eq_next.1 h
      cases h
      exact ⟨.inr ⟨by simp, rfl⟩, rfl⟩
  | reserved u =>
    simp only [hd] at h
    obtain ⟨-, h⟩ := unlessBusy_eq_next.1 h
    cases h
    exact ⟨.inr ⟨by simp, rfl⟩, rfl⟩

/-- A line of the host's program that goes on is a write of the register window, or changes neither STATE nor the operand
registers (R34, R64, R83, R84). -/
theorem runLine_writes_or_keeps {l : HostLine} {n : Bool} (h : runLine l n s = .next t) :
    (∃ off size v, hostWrite off size v s = .next t ∧
      (l = .wr off size v ∨ ∃ d, l = .wrf off d ∧ size = 4 ∧ f32ofDecimal d = some v)) ∨
    (t.state = s.state ∧ t.regs = s.regs) := by
  cases l with
  | wr off size v => exact .inl ⟨off, size, v, h, .inl rfl⟩
  | wrf off d =>
    simp only [runLine, hostWriteFloat] at h
    cases hd : f32ofDecimal d with
    | none => simp [hd] at h
    | some v => exact .inl ⟨off, 4, v, by simpa only [hd] using h, .inr ⟨d, rfl, rfl, hd⟩⟩
  | rd off size =>
    obtain ⟨-, -, -, -, rfl⟩ := hostRead_eq_next h
    exact .inr ⟨rfl, rfl⟩
  | memw a v =>
    obtain ⟨-, -, h⟩ := hostMemGuard_eq_next.1 h
    cases h
    exact .inr ⟨rfl, rfl⟩
  | memwb a k v =>
    obtain ⟨-, -, h⟩ := hostMemGuard_eq_next.1 h
    cases h
    exact .inr ⟨rfl, rfl⟩
  | memr a =>
    simp only [runLine, hostMemRead] at h
    split_ifs at h
    cases h
    exact .inr ⟨rfl, rfl⟩
  | memrb a k =>
    simp only [runLine, hostByteRead] at h
    split_ifs at h
    cases h
    exact .inr ⟨rfl, rfl⟩
  | poll =>
    cases h
    exact .inr ⟨rfl, rfl⟩

/-- The host's step runs its next line, or is idle when its program is used up (R158). -/
theorem hostStep_eq_next {n : Bool} (h : hostStep n s = .next t) :
    (s.prog = [] ∧ t = s) ∨ ∃ l ps, s.prog = l :: ps ∧ runLine l n { s with prog := ps } = .next t := by
  unfold hostStep at h
  cases hp : s.prog with
  | nil =>
    simp only [hp] at h
    cases h
    exact .inl ⟨rfl, rfl⟩
  | cons l ps => exact .inr ⟨l, ps, rfl, by simpa only [hp] using h⟩

/-- A step that goes on is the turn of the state whose turn it is (R158, R178). -/
theorem runTurn_of_step (h : step s = .next t) : runTurn s.turn s.dropTurn = .next t := (unlessMarked_eq_next.1 h).2

/-- A line that does not name operand register `r` as its target leaves its contents (R33). -/
theorem runLine_keeps_reg {l : HostLine} {n : Bool} {r : OpReg} (h : runLine l n s = .next t)
    (hl : l.target ≠ some (.op r)) : t.regs.get r = s.regs.get r := by
  rcases runLine_writes_or_keeps h with ⟨off, size, v, hw, hline⟩ | ⟨-, hr⟩
  · obtain ⟨-, q, hq, hw⟩ := hostWrite_eq_next hw
    have htarget : l.target = some q := by
      rcases hline with rfl | ⟨d, rfl, rfl, -⟩ <;> exact hq
    cases q with
    | ctrl =>
      obtain ⟨-, hr⟩ := runCtrl_eq_next hw
      rw [hr]
    | status => cases hw; rfl
    | op o =>
      cases hw
      exact Regs.get_set_ne _ v fun ho => hl (by rw [htarget, ho])
  · rw [hr]

/-- A step of the block writes no operand register (R33). -/
theorem BlockEffect.regs_eq (h : BlockEffect s t) : t.regs = s.regs := by cases h <;> rfl

/-- The verdict of a validation is F_UNWRITTEN exactly when an operand register is unwritten (R33, R153). -/
theorem State.verdict_eq_unwritten (s : State) : s.verdict = .unwritten ↔ ∃ r, s.regs.get r = none := by
  rw [← Regs.descriptor_eq_none]
  unfold State.verdict
  cases s.regs.descriptor with
  | none => simp
  | some d =>
    simp only [reduceCtorEq, iff_false, Descriptor.verdict]
    split
    · simp
    · split_ifs <;> simp

/-- A validation is the fault F_UNWRITTEN exactly when its verdict is (R153). -/
theorem validate_eq_unwritten (s : State) : validate s = .fault .unwritten ↔ s.verdict = .unwritten := by
  unfold validate
  cases s.verdict <;> simp

end Sys2Proof.Machine
end

section
/-! STATUS and the marks: how STATE changes (R26), what ERR and STATUS read (R27, R73), and that a mark stays (R178). -/

namespace Sys2Proof.Machine

variable {s t : State}

/-- The ERR code of an architectural error is not NONE (R27). -/
theorem ArchError.code_ne_none (e : ArchError) : e.code ≠ .none := by cases e <;> simp [ArchError.code]

/-- STATUS in IDLE without an error reads 0 (R39, R73). -/
theorem statusWord_idle_none : statusWord .idle .none = 0 := by decide

/-- A fault mark stays (R178). -/
theorem advance_keeps_faultMark {f : Fault} (h : s.faultMark = some f) : (advance s).faultMark = some f := by
  rw [advance_of_fault (step_of_faultMark h)]

/-- A refusal mark stays, whether or not a fault mark is set too (R178). -/
theorem advance_keeps_refusalMark {r : Refusal} (h : s.refusalMark = some r) : (advance s).refusalMark = some r := by
  cases hf : s.faultMark with
  | some f => rw [advance_of_fault (step_of_faultMark hf), h]
  | none =>
    have hstep : step s = .refused r := by simp [step, unlessMarked, hf, h]
    rw [advance_of_refused hstep]

/-- A line of the host's program that changes STATE is a write of a command to CTRL while STATE ≠ BUSY (R26, R150, R161). -/
theorem runLine_changes_state {l : HostLine} {n : Bool} (h : runLine l n s = .next t) (hne : t.state ≠ s.state) :
    s.state ≠ .busy ∧ ∃ off v, decodeAccess off 4 = some .ctrl ∧
      (l = .wr off 4 v ∨ ∃ d, l = .wrf off d ∧ f32ofDecimal d = some v) ∧
      ((decodeCtrl v = .instr .clear ∧ t.state = .idle) ∨ (decodeCtrl v ≠ .instr .clear ∧ t.state = .busy)) := by
  rcases runLine_writes_or_keeps h with ⟨off, size, v, hw, hline⟩ | ⟨hsame, -⟩
  · obtain ⟨hb, r, hr, hw⟩ := hostWrite_eq_next hw
    obtain rfl := size_of_decodeAccess hr
    cases r with
    | ctrl =>
      obtain ⟨hstate, -⟩ := runCtrl_eq_next hw
      exact ⟨hb, off, v, hr, hline.imp_right fun ⟨d, hl, _, hd⟩ => ⟨d, hl, hd⟩, hstate⟩
    | status => cases hw; exact absurd rfl hne
    | op o => cases hw; exact absurd rfl hne
  · exact absurd hsame hne

/-- A step of the block that changes STATE ends a pending command in ERROR with an error code, or completes a FILTER whose
words are all written (R26, R153, R156). -/
theorem BlockEffect.changes_state (h : BlockEffect s t) (hne : t.state ≠ s.state) :
    ((∃ c, s.job = .pending c) ∧ t.state = .error ∧ t.err ≠ .none) ∨
      ((∃ R old, s.job = .writing R [] old) ∧ t.state = .done) := by
  cases h with
  | none => exact absurd rfl hne
  | error e c hj => exact .inl ⟨⟨c, hj⟩, rfl, e.code_ne_none⟩
  | start => exact absurd rfl hne
  | write => exact absurd rfl hne
  | complete R old hj => exact .inr ⟨⟨R, old, hj⟩, rfl⟩

end Sys2Proof.Machine
end

section
/-! The invariant (R26, R27, R37, R50, R58, R60, R64): it holds at launch, and every effect of a step keeps it. -/

namespace Sys2Proof.Machine

variable {s t : State}

/-- What the invariant says of a writing job (R37). -/
theorem State.Inv.writingOk {R : List PackedWord} {todo : List Nat} {old : List PackedWord} (h : s.Inv)
    (hj : s.job = .writing R todo old) : ∃ d, s.WritingOk R todo old d := by
  have hjob := h.job_ok
  rwa [State.JobOk, hj] at hjob

/-- A job in progress means BUSY (R37). -/
theorem State.Inv.busy (h : s.Inv) (hj : s.job ≠ .none) : s.state = .busy := h.busy_iff.2 hj

/-- While BUSY, ERR is NONE (R27). -/
theorem State.Inv.err_of_busy (h : s.Inv) (hb : s.state = .busy) : s.err = .none := by
  by_contra he
  rw [h.err_iff.1 he] at hb
  cases hb

/-- When STATE ≠ BUSY there is no job (R37). -/
theorem State.Inv.job_of_not_busy (h : s.Inv) (hb : s.state ≠ .busy) : s.job = .none := by
  by_contra hj
  exact hb (h.busy hj)

/-- With no job and STATE ≠ BUSY, the invariant is about ERR and data memory alone. -/
theorem State.Inv.of_no_job (hb : t.state ≠ .busy) (hj : t.job = .none) (he : t.err ≠ .none ↔ t.state = .error)
    (hwf : t.mem.wf) (hbound : ∀ c ∈ t.mem, c.1 < byteNumber t.memWords.val 0) : t.Inv where
  busy_iff := by simp [hb, hj]
  err_iff := he
  mem_wf := hwf
  mem_bound := hbound
  job_ok := by simp [State.JobOk, hj]

/-- A launch on a canonical data memory with no byte past MEM_WORDS has the invariant (R39, R190). -/
theorem State.launch_inv {m : Memory} (hwf : m.wf)
    (hbound : ∀ c ∈ m, c.1 < byteNumber (State.launch m).memWords.val 0) : (State.launch m).Inv :=
  .of_no_job (by simp) (by simp) (by simp) hwf hbound

/-- A writing job stays right while the registers, MEM_WORDS and the used words stay as they are (R37, R64). -/
theorem State.WritingOk.of_used_words {R : List PackedWord} {todo : List Nat} {old : List PackedWord} {d : Descriptor}
    (h : s.WritingOk R todo old d) (hr : t.regs = s.regs) (hw : t.memWords = s.memWords)
    (hin : ∀ j < d.wordCount, t.mem.readWord (d.ib + j) = s.mem.readWord (d.ib + j))
    (hout : ∀ j < d.wordCount, t.mem.readWord (d.ob + j) = s.mem.readWord (d.ob + j)) : t.WritingOk R todo old d where
  verdict := (State.verdict_congr hr hw).trans h.verdict
  result_eq := h.result_eq.trans (Descriptor.result_congr hin).symm
  old_length := h.old_length
  todo_nodup := h.todo_nodup
  todo_lt := h.todo_lt
  written j hj hnot := by rw [hout j hj]; exact h.written j hj hnot
  unwritten j hj := by rw [hout j (h.todo_lt j hj)]; exact h.unwritten j hj

/-- The invariant speaks of STATUS, the job, the registers, MEM_WORDS and data memory, and of data memory's contents only
through the used words of a job that is writing. -/
theorem State.Inv.of_used_words (h : s.Inv) {m : Memory} (hwf : m.wf)
    (hbound : ∀ c ∈ m, c.1 < byteNumber s.memWords.val 0)
    (hused : ∀ R todo old d, s.job = .writing R todo old → s.verdict = .go d → ∀ j < d.wordCount,
      m.readWord (d.ib + j) = s.mem.readWord (d.ib + j) ∧ m.readWord (d.ob + j) = s.mem.readWord (d.ob + j))
    (p : List HostLine) (r : List HostRead) (ts : List Turn) :
    State.Inv { s with mem := m, prog := p, reads := r, turns := ts } where
  busy_iff := h.busy_iff
  err_iff := h.err_iff
  mem_wf := hwf
  mem_bound := hbound
  job_ok := by
    unfold State.JobOk
    cases hj : s.job with
    | none => trivial
    | pending c => trivial
    | writing R todo old =>
      obtain ⟨d, hd⟩ := h.writingOk hj
      have hsame := hused R todo old d hj hd.verdict
      exact ⟨d, hd.of_used_words rfl rfl (fun j hlt => (hsame j hlt).1) fun j hlt => (hsame j hlt).2⟩

/-- The invariant does not speak of the host's program, of the values it has read, or of the turns. -/
theorem State.Inv.of_host_parts (h : s.Inv) (p : List HostLine) (r : List HostRead) (ts : List Turn) :
    State.Inv { s with prog := p, reads := r, turns := ts } :=
  h.of_used_words h.mem_wf h.mem_bound (fun _ _ _ _ _ _ _ _ => ⟨rfl, rfl⟩) p r ts

/-- Accepting a command keeps the invariant (R152, R157). -/
theorem State.Inv.accept (h : s.Inv) (c : PendingCmd) : (s.accept c).Inv where
  busy_iff := by simp
  err_iff := by simp
  mem_wf := h.mem_wf
  mem_bound := h.mem_bound
  job_ok := trivial

/-- A host write that changes no word but `a`, where `a` is not a used word of a FILTER in progress, keeps the invariant
(R64, R196). -/
theorem State.Inv.of_host_write {a : Nat} {m : Memory} (h : s.Inv) (hu : ¬ (s.state = .busy ∧ s.usesWord a = true))
    (hwf : m.wf) (hbound : ∀ c ∈ m, c.1 < byteNumber s.memWords.val 0)
    (hm : ∀ b, b ≠ a → m.readWord b = s.mem.readWord b) : State.Inv { s with mem := m } := by
  refine h.of_used_words hwf hbound (fun R todo old d hj hv j hlt => ?_) s.prog s.reads s.turns
  have hunused : ¬ s.usesWord a = true := not_and.1 hu (h.busy (by simp [hj]))
  rw [State.usesWord_eq_of_go hj hv, Bool.or_eq_true, inRange_iff, inRange_iff] at hunused
  exact ⟨hm _ (by omega), hm _ (by omega)⟩

/-- Data memory has the words below MEM_WORDS (R50). -/
theorem State.hasWord_iff (s : State) (a : Nat) : s.hasWord a = true ↔ a < s.memWords.val := by simp [State.hasWord]

/-- Every effect of a host line keeps the invariant. -/
theorem LineEffect.keeps_inv (h : LineEffect s t) (hs : s.Inv) : t.Inv := by
  cases h with
  | ignored => exact hs
  | clear => exact .of_no_job (by simp) rfl (by simp) hs.mem_wf hs.mem_bound
  | accept _ c => exact hs.accept c
  | setReg hb => exact .of_no_job hb (hs.job_of_not_busy hb) hs.err_iff hs.mem_wf hs.mem_bound
  | saw v => exact hs.of_host_parts s.prog (v :: s.reads) s.turns
  | poll p => exact hs.of_host_parts p (.reg s.status :: s.reads) s.turns
  | word a v hu hw =>
    refine hs.of_host_write hu (Memory.writeWord_wf _ a v hs.mem_wf)
      (Memory.writeWord_bound _ a v _ hs.mem_bound ((s.hasWord_iff _).1 hw)) fun b hb => ?_
    rw [Memory.readWord_writeWord _ _ _ _ hs.mem_wf, if_neg hb]
  | byte a k v hu hw =>
    have ha : a < s.memWords.val := (s.hasWord_iff a).1 hw
    have hbyte : byteNumber a k.val < byteNumber s.memWords.val 0 := by
      simp only [byteNumber, Config.samplesPerWord]; omega
    exact hs.of_host_write hu (Memory.writeByte_wf _ _ v hs.mem_wf) (Memory.writeByte_bound _ _ v _ hs.mem_bound hbyte)
      fun b hb => Memory.readWord_writeByte_ne _ a k.val b v hs.mem_wf k.isLt hb

/-- A validation that passes starts a job whose words are all to be written (R153). -/
theorem State.writingOk_startWriting {d : Descriptor} (hv : s.verdict = .go d) (j : Job) :
    State.WritingOk { s with job := j } (d.result s.mem) (List.range d.wordCount) (s.mem.readWords d.ob d.wordCount) d where
  verdict := hv
  result_eq := rfl
  old_length := by simp
  todo_nodup := List.nodup_range
  todo_lt _ hj := List.mem_range.1 hj
  written _ hlt hnot := absurd (List.mem_range.2 hlt) hnot
  unwritten _ hj := by rw [Memory.getElem?_readWords, if_pos (List.mem_range.1 hj)]

/-- The OUT_BASE of a descriptor is the register's (R79). -/
theorem Regs.ob_of_descriptor {r : Regs} {d : Descriptor} {ob : Reg32} (h : r.descriptor = some d)
    (ho : r.outBase = some ob) : d.ob = ob.toNat := by
  rw [(Regs.descriptor_eq_some.1 h).2]
  exact congrArg BitVec.toNat (Regs.value_of_get (o := .outBase) ho)

/-- The block's write of result word `j` takes `j` from the words still to be written and keeps the job right: the input
words lie outside the used output range, and the other output words are other words (R58, R60, R155). -/
theorem State.WritingOk.of_result_write {R : List PackedWord} {todo : List Nat} {old : List PackedWord} {d : Descriptor}
    {j : Nat} {v : PackedWord} (h : s.WritingOk R todo old d) (hwf : s.mem.wf) (hj : j ∈ todo) (hv : R[j]? = some v)
    (job : Job) :
    State.WritingOk { s with mem := s.mem.writeWord (d.ob + j) v, job := job } R (todo.erase j) old d := by
  obtain ⟨-, -, hoverlap, -⟩ := (s.verdict_eq_go d).1 h.verdict
  have hdisjoint := d.overlaps_eq_false.1 hoverlap
  have hlt := h.todo_lt j hj
  have hin : ∀ i < d.wordCount,
      (s.mem.writeWord (d.ob + j) v).readWord (d.ib + i) = s.mem.readWord (d.ib + i) := fun i hi => by
    rw [Memory.readWord_writeWord _ _ _ _ hwf, if_neg (by omega)]
  have hout : ∀ i, i ≠ j → (s.mem.writeWord (d.ob + j) v).readWord (d.ob + i) = s.mem.readWord (d.ob + i) := fun i hi => by
    rw [Memory.readWord_writeWord _ _ _ _ hwf, if_neg (by omega)]
  refine ⟨h.verdict, h.result_eq.trans (Descriptor.result_congr hin).symm, h.old_length, h.todo_nodup.erase j,
    fun i hi => h.todo_lt i (List.mem_of_mem_erase hi), fun i hi hnot => ?_, fun i hi => ?_⟩
  · by_cases hij : i = j
    · subst hij
      rw [hv, Memory.readWord_writeWord _ _ _ _ hwf, if_pos rfl]
    · rw [hout i hij]
      exact h.written i hi fun hmem => hnot ((List.mem_erase_of_ne hij).2 hmem)
  · obtain ⟨hij, hmem⟩ := h.todo_nodup.mem_erase_iff.1 hi
    rw [hout i hij]
    exact h.unwritten i hmem

/-- Every effect of a step of the block keeps the invariant. -/
theorem BlockEffect.keeps_inv (h : BlockEffect s t) (hs : s.Inv) : t.Inv := by
  cases h with
  | none => exact hs
  | error e => exact .of_no_job (by simp) rfl (by simp [e.code_ne_none]) hs.mem_wf hs.mem_bound
  | start d hj hv =>
    have hb := hs.busy (by simp [hj])
    exact ⟨by simp [hb, Descriptor.startWriting], hs.err_iff, hs.mem_wf, hs.mem_bound, d, State.writingOk_startWriting hv _⟩
  | write R todo old j ob v hj hm ho hv hw =>
    have hb := hs.busy (by simp [hj])
    obtain ⟨d, hd⟩ := hs.writingOk hj
    have hob : d.ob = ob.toNat := Regs.ob_of_descriptor ((s.verdict_eq_go d).1 hd.verdict).1 ho
    exact ⟨by simp [hb], hs.err_iff, Memory.writeWord_wf _ _ v hs.mem_wf,
      Memory.writeWord_bound _ _ v _ hs.mem_bound ((s.hasWord_iff _).1 hw), d, hob ▸ hd.of_result_write hs.mem_wf hm hv _⟩
  | complete R old hj =>
    have he := hs.err_of_busy (hs.busy (by simp [hj]))
    exact .of_no_job (by simp) rfl (by simp [he]) hs.mem_wf hs.mem_bound

/-- Every effect of a turn keeps the invariant. -/
theorem TurnEffect.keeps_inv (h : TurnEffect s t) (hs : s.Inv) : t.Inv := by
  cases h with
  | idle => exact hs
  | line rest h => exact h.keeps_inv (hs.of_host_parts rest s.reads s.turns)
  | block h => exact h.keeps_inv hs
  | reset => exact .of_no_job (by simp) rfl (by simp) hs.mem_wf hs.mem_bound

/-- No turn writes `MEM_WORDS` (R6). -/
theorem TurnEffect.memWords_eq (h : TurnEffect s t) : t.memWords = s.memWords := by
  cases h with
  | idle => rfl
  | line rest h => cases h <;> rfl
  | block h => cases h <;> rfl
  | reset => rfl

/-- Every step keeps the invariant. -/
theorem step_keeps_inv (hs : s.Inv) (h : step s = .next t) : t.Inv :=
  (step_effect h).2.keeps_inv (hs.of_host_parts s.prog s.reads s.turns.tail)

end Sys2Proof.Machine
end

section
/-! The statements about the state: reset, the invariant, the registers and the ways STATE changes (R23, R26, R33 to R35, R39). -/

namespace Sys2Proof.Proofs
open Sys2Proof.Machine

/-- Settles O4: each effect a step can have keeps the invariant, and none writes `MEM_WORDS`. -/
theorem stepKeepsInvariant : Obligations.StepKeepsInvariant :=
  fun _ _ hs h => ⟨step_keeps_inv hs h, (step_effect h).2.memWords_eq⟩

/-- Settles O3: a launch is IDLE without a job, so the invariant is what is assumed of data memory. -/
theorem invariantHoldsAtReset : Obligations.InvariantHoldsAtReset :=
  ⟨State.launch_inv Memory.wf_nil (by simp), fun _ => State.launch_inv⟩

/-- Settles O1: a launch and a reset turn leave the values of R39, and a mark stays. -/
theorem resetLeavesSpecValues : Obligations.ResetLeavesSpecValues := by
  refine ⟨fun m => ⟨rfl, rfl, statusWord_idle_none, rfl, Regs.get_unwritten, rfl, rfl, rfl, rfl⟩, ⟨[], rfl⟩, fun s ts ht =>
    ⟨fun hm => ?_, fun _ => advance_keeps_faultMark, fun _ => advance_keeps_refusalMark⟩⟩
  exact ⟨_, step_of_turns hm ht, rfl, rfl, statusWord_idle_none, rfl, Regs.get_unwritten, rfl, rfl, hm⟩

/-- Settles O8: decoding inverts `Reg.offset`, and fails exactly at the bad accesses. -/
theorem registerMapRoundTrip : Obligations.RegisterMapRoundTrip :=
  ⟨fun _ r => ⟨offset_of_decodeOffset, fun h => h ▸ decodeOffset_offset r⟩, decodeAccess_eq_none, windowOffset_regAddress⟩

/-- Settles O21: a bad access decodes to no register. -/
theorem badAccessFaults : Obligations.BadAccessFaults := by
  intro s off size n ps ts hm ht hbad
  have hnone := (decodeAccess_eq_none off size).2 hbad
  constructor
  · intro hp
    rw [step_of_line hm ht hp]
    exact hostRead_bad hnone
  · intro v hb hp
    rw [step_of_line hm ht hp]
    exact hostWrite_bad (s := { s with prog := ps, turns := ts }) hb hnone v

/-- Settles O22: the host's line is the access, and each row of R34 is the rule of that access. -/
theorem registerAccessEffects : Obligations.RegisterAccessEffects := by
  intro s n ps ts hm ht
  refine ⟨fun r v hb hp => ⟨?_, Regs.get_set_same _ r v, fun q hq => Regs.get_set_ne _ v hq⟩, fun r v hb hp => ?_,
    fun v hb hp => ?_, fun r v hr hp => ?_, fun r hr hp => ?_, fun hp => ?_, fun hp => ?_⟩ <;>
    rw [step_of_line hm ht hp]
  · exact hostWrite_offset (s := { s with prog := ps, turns := ts }) hb (.op r) v
  · exact unlessBusy_of_busy hb _
  · exact hostWrite_offset (s := { s with prog := ps, turns := ts }) hb .status v
  · exact hostRead_offset (r := .op r) hr
  · exact hostRead_offset_unwritten (r := .op r) hr
  · exact hostRead_offset (r := .ctrl) rfl
  · exact hostRead_offset (r := .status) rfl

/-- Settles O23: only a host line that targets a register, or a reset, changes its contents. -/
theorem registersHoldWhatWasWritten : Obligations.RegistersHoldWhatWasWritten := by
  refine ⟨fun _ => Regs.get_unwritten, fun s t r h hkeep => ?_, fun s r n ps ts hm ht hp hr => ?_,
    fun s pick ts hm ht hj => ?_⟩
  · have hturn := runTurn_of_step h
    cases hu : s.turn with
    | host n =>
      rw [hu] at hturn
      rcases hostStep_eq_next hturn with ⟨-, rfl⟩ | ⟨l, ps, hp, hl⟩
      · rfl
      · have hhead : s.prog.head? = some l := by rw [← State.dropTurn_prog, hp, List.head?_cons]
        have htarget : l.target ≠ some (.op r) := fun hl => hkeep (.inr ⟨n, l, hu, hhead, hl⟩)
        rw [runLine_keeps_reg hl htarget, State.dropTurn_regs]
    | idle => rw [hu] at hturn; cases hturn; rfl
    | block pick => rw [hu] at hturn; rw [(blockStep_effect hturn).regs_eq, State.dropTurn_regs]
    | reset => exact absurd (.inl hu) hkeep
  · rw [step_of_line hm ht hp]
    exact hostRead_offset_unwritten (r := .op r) hr
  · have hvalidate : step s = validate { s with turns := ts } := by
      rw [step_of_turns hm ht]; simp only [runTurn, blockStep, hj]
    rw [hvalidate, validate_eq_unwritten, State.verdict_eq_unwritten]

/-- Settles O30: by whose turn it is; BUSY is when there is a job. -/
theorem stateChangesOnlyAsListed : Obligations.StateChangesOnlyAsListed := by
  intro s t hs h hne
  have hturn := runTurn_of_step h
  cases hu : s.turn with
  | host n =>
    rw [hu] at hturn
    rcases hostStep_eq_next hturn with ⟨-, rfl⟩ | ⟨l, ps, hp, hl⟩
    · exact absurd rfl hne
    · obtain ⟨hb, off, v, hctrl, hline, hstate⟩ := runLine_changes_state hl hne
      refine .inr (.inl ⟨hb, n, off, v, ps, rfl, hctrl, ?_, hstate⟩)
      rcases hline with rfl | ⟨d, rfl, hd⟩
      · exact .inl hp
      · exact .inr ⟨d, hp, hd⟩
  | idle => rw [hu] at hturn; cases hturn; exact absurd rfl hne
  | block pick =>
    rw [hu] at hturn
    have hends := (blockStep_effect hturn).changes_state hne
    have hb : s.state = .busy := hs.busy (by
      rcases hends with ⟨⟨c, hj⟩, -⟩ | ⟨⟨R, old, hj⟩, -⟩ <;> rw [State.dropTurn_job] at hj <;> simp [hj])
    exact .inr (.inr ⟨⟨pick, rfl⟩, hb, hends⟩)
  | reset => rw [hu] at hturn; cases hturn; exact .inl ⟨rfl, rfl⟩

end Sys2Proof.Proofs
end

section
/-! The block's steps on data memory (R57 to R63, R153 to R156): what a validation answers, the one word that a step writes, and
what data memory holds when a FILTER completes. -/

namespace Sys2Proof.Machine

variable {s t : State}

/-- A word in both used ranges, index by index (R61). -/
theorem Descriptor.overlaps_iff (d : Descriptor) :
    d.overlaps = true ↔ ∃ i < d.wordCount, ∃ j < d.wordCount, d.ib + i = d.ob + j := by
  simp only [Descriptor.overlaps, Bool.and_eq_true, decide_eq_true_eq]
  constructor
  · rintro ⟨hib, hob⟩
    rcases Nat.le_total d.ib d.ob with h | h
    · exact ⟨d.ob - d.ib, by omega, 0, by omega, by omega⟩
    · exact ⟨0, by omega, d.ib - d.ob, by omega, by omega⟩
  · rintro ⟨i, hi, j, hj, h⟩
    omega

/-- The verdict when all registers are written and every architectural check passes: overlap goes before range (R153, R180). -/
theorem State.verdict_of_archError_none {d : Descriptor} (hd : s.regs.descriptor = some d) (he : d.archError = none) :
    s.verdict = if d.overlaps = true then .overlap else if d.pastMemory s.memWords.val = true then .stuck else .go d := by
  simp only [State.verdict, hd, Descriptor.verdict, he]

/-- With a FILTER pending, the block's turn is the validation (R153, R158). -/
theorem step_of_pending_filter {pick : Nat} {ts : List Turn} (hm : s.unmarked = true) (ht : s.turns = .block pick :: ts)
    (hj : s.job = .pending .filter) : step s = validate { s with turns := ts } := by
  rw [step_of_turns hm ht]
  simp only [runTurn, blockStep, hj]

/-- A validation that passes starts the writes (R153). -/
theorem step_of_verdict_go {pick : Nat} {ts : List Turn} {d : Descriptor} (hm : s.unmarked = true)
    (ht : s.turns = .block pick :: ts) (hj : s.job = .pending .filter) (hv : s.verdict = .go d) :
    step s = .next { s with job := d.startWriting s.mem, turns := ts } := by
  have hv' : State.verdict { s with turns := ts } = .go d := hv
  rw [step_of_pending_filter hm ht hj, validate, hv']

/-- The OUT_BASE register of a FILTER that passes validation (R79). -/
theorem State.outBase_of_go {d : Descriptor} (hv : s.verdict = .go d) :
    ∃ ob : Reg32, s.regs.outBase = some ob ∧ d.ob = ob.toNat := by
  have hd := ((s.verdict_eq_go d).1 hv).1
  have ho : s.regs.outBase = some _ := Regs.get_of_allWritten (Regs.descriptor_eq_some.1 hd).1 .outBase
  exact ⟨_, ho, Regs.ob_of_descriptor hd ho⟩

/-- A job that is writing has `NW` result words (R101, R154). -/
theorem State.WritingOk.length_result {R : List PackedWord} {todo : List Nat} {old : List PackedWord} {d : Descriptor}
    (h : s.WritingOk R todo old d) : R.length = d.wordCount := by
  obtain ⟨-, harch, -⟩ := (s.verdict_eq_go d).1 h.verdict
  rw [h.result_eq, d.length_result _ harch]

/-- There is a result word for each index still to be written (R154, R155). -/
theorem State.WritingOk.exists_result {R : List PackedWord} {todo : List Nat} {old : List PackedWord} {d : Descriptor}
    {j : Nat} (h : s.WritingOk R todo old d) (hj : j ∈ todo) : ∃ v, R[j]? = some v :=
  ⟨_, List.getElem?_eq_getElem (h.length_result.symm ▸ h.todo_lt j hj)⟩

/-- The block writes the picked result word to its output word and takes its index from those to be written (R155). -/
theorem blockStep_of_writing {pick j : Nat} {d : Descriptor} {R : List PackedWord} {todo : List Nat}
    {old : List PackedWord} {v : PackedWord} (hj : s.job = .writing R todo old) (h : s.WritingOk R todo old d)
    (hpick : pickIndex todo pick = j) (hmem : j ∈ todo) (hv : R[j]? = some v) :
    blockStep pick s = .next { s with mem := s.mem.writeWord (d.ob + j) v, job := .writing R (todo.erase j) old } := by
  have hlt := h.todo_lt j hmem
  obtain ⟨ob, ho, hob⟩ := State.outBase_of_go h.verdict
  obtain ⟨-, -, -, hpast⟩ := (s.verdict_eq_go d).1 h.verdict
  have hbound := (d.pastMemory_eq_false _).1 hpast
  have hw : s.hasWord (d.ob + j) = true := (s.hasWord_iff _).2 (by omega)
  simp only [blockStep, hj, if_neg (List.ne_nil_of_mem hmem), hpick, blockWrite, ho, hv, ← hob, hw, if_true]

/-- A step of the block leaves data memory, or writes one used output word of a FILTER that is writing (R57, R58). -/
theorem BlockEffect.mem_eq_or_write (h : BlockEffect s t) (hs : s.Inv) :
    t.mem = s.mem ∨ ∃ d R todo old j v, s.job = .writing R todo old ∧ s.verdict = .go d ∧ j < d.wordCount ∧
      t.mem = s.mem.writeWord (d.ob + j) v := by
  cases h with
  | none => exact .inl rfl
  | error => exact .inl rfl
  | start => exact .inl rfl
  | complete => exact .inl rfl
  | write R todo old j ob v hj hm ho =>
    obtain ⟨d, hd⟩ := hs.writingOk hj
    have hob := Regs.ob_of_descriptor ((s.verdict_eq_go d).1 hd.verdict).1 ho
    exact .inr ⟨d, R, todo, old, j, v, hj, hd.verdict, hd.todo_lt j hm, by rw [hob]⟩

/-- No line of the host makes STATE become DONE (R26). -/
theorem LineEffect.done_of_done (h : LineEffect s t) (ht : t.state = .done) : s.state = .done := by
  cases h with
  | clear => cases ht
  | accept => cases ht
  | _ => exact ht

/-- STATE becomes DONE by the completion of a FILTER whose words are all written, and by nothing else (R26, R156). -/
theorem TurnEffect.completes (h : TurnEffect s t) (ht : t.state = .done) (hs : s.state ≠ .done) :
    ∃ R old, s.job = .writing R [] old ∧ t = { s with state := .done, job := .none } := by
  cases h with
  | idle => exact absurd ht hs
  | line rest h => exact absurd (h.done_of_done ht) hs
  | reset => cases ht
  | block h =>
    cases h with
    | complete R old hj => exact ⟨R, old, hj, rfl⟩
    | error => cases ht
    | none => exact absurd ht hs
    | start => exact absurd ht hs
    | write => exact absurd ht hs

/-- With no word left to write, the used output words hold the result of the filter on the used input words (R63, R154). -/
theorem State.WritingOk.output_eq_result {R old : List PackedWord} {d : Descriptor} (h : s.WritingOk R [] old d) :
    s.mem.readWords d.ob d.wordCount = d.result s.mem := by
  rw [← h.result_eq]
  apply List.ext_getElem?
  intro j
  rw [Memory.getElem?_readWords]
  split_ifs with hj
  · exact h.written j hj List.not_mem_nil
  · exact (List.getElem?_eq_none (by rw [h.length_result]; omega)).symm

/-- From a FILTER that is writing, the writes follow any order of the indices still to be written (R58, R155). -/
theorem exists_picks_of_order {R old : List PackedWord} (order : List Nat) {todo : List Nat}
    (ts : List Turn) (hs : s.Inv) (hm : s.unmarked = true) (hj : s.job = .writing R todo old) (ho : order.Perm todo) :
    ∃ picks : List Nat, picks.length = order.length ∧ ∀ k ≤ order.length, ∃ t todo',
      core.run k { s with turns := picks.map Turn.block ++ ts } = .next t ∧
      t.job = .writing R todo' old ∧ ∀ j, j ∈ todo' ↔ j ∈ order.drop k := by
  induction order generalizing s todo with
  | nil =>
    refine ⟨[], rfl, fun k hk => ?_⟩
    obtain rfl : k = 0 := Nat.le_zero.1 hk
    exact ⟨_, todo, rfl, hj, fun j => ho.mem_iff.symm⟩
  | cons i order ih =>
    have hmem : i ∈ todo := ho.subset List.mem_cons_self
    obtain ⟨pick, hpick⟩ := exists_pickIndex hmem
    obtain ⟨d, hd⟩ := hs.writingOk hj
    obtain ⟨v, hv⟩ := hd.exists_result hmem
    have hwrite := blockStep_of_writing hj hd hpick hmem hv
    have hrest : order.Perm (todo.erase i) := by simpa using ho.erase i
    obtain ⟨picks, hlen, hpicks⟩ := ih ((blockStep_effect hwrite).keeps_inv hs) hm rfl hrest
    refine ⟨pick :: picks, by simp [hlen], fun k hk => ?_⟩
    cases k with
    | zero => exact ⟨_, todo, rfl, hj, fun j => ho.mem_iff.symm⟩
    | succ k =>
      have hstep := step_of_turns (s := { s with turns := .block pick :: (picks.map Turn.block ++ ts) }) hm rfl
      obtain ⟨t, todo', hrun, hjob, hiff⟩ := hpicks k (Nat.le_of_succ_le_succ hk)
      refine ⟨t, todo', ?_, hjob, hiff⟩
      rw [List.map_cons, List.cons_append, run_succ_of_next k (hstep.trans ?_)]
      · exact hrun
      · exact blockStep_of_writing hj (hd.of_used_words rfl rfl (fun _ _ => rfl) fun _ _ => rfl) hpick hmem hv

end Sys2Proof.Machine
end

section
/-! The statements about the block's use of data memory (R57 to R63, R153, R155, R162). -/

namespace Sys2Proof.Proofs
open Sys2Proof.Machine

/-- Settles O34: only the completion of a FILTER whose words are all written makes STATE become DONE, and the invariant says
what these words hold. -/
theorem doneMeansResultInMemory : Obligations.DoneMeansResultInMemory := by
  intro s t hs h ht hne
  obtain ⟨R, old, hj, rfl⟩ := (step_effect h).2.completes ht hne
  obtain ⟨d, hd⟩ := hs.writingOk hj
  obtain ⟨hdesc, harch, -⟩ := (s.verdict_eq_go d).1 hd.verdict
  exact ⟨d, hdesc, harch, hd.output_eq_result⟩

/-- Settles O26: the block's turn is the validation, and its verdict is overlap before stuck. -/
theorem validationFaultsAndStuck : Obligations.ValidationFaultsAndStuck := by
  intro s d pick ts hm ht hj hd he
  have hv := State.verdict_of_archError_none (s := { s with turns := ts }) hd he
  rw [step_of_pending_filter hm ht hj, validate, hv]
  constructor
  · intro hshare
    rw [if_pos (d.overlaps_iff.2 hshare)]
  · intro hdisjoint hpast
    have hno : ¬ d.overlaps = true := fun h => by
      obtain ⟨i, hi, j, hj, heq⟩ := d.overlaps_iff.1 h
      exact hdisjoint i hi j hj heq
    have hyes : d.pastMemory s.memWords.val = true := by
      rw [← Bool.not_eq_false, Descriptor.pastMemory_eq_false]
      omega
    rw [if_neg hno, if_pos hyes]

/-- Settles O33: the one word a step of the block can write is a used output word, and so no used input word. -/
theorem blockWritesOnlyUsedOutput : Obligations.BlockWritesOnlyUsedOutput := by
  intro s t pick hs hturn h
  have hblock := runTurn_of_step h
  rw [hturn] at hblock
  have heffect := (blockStep_effect hblock).mem_eq_or_write (hs.of_host_parts s.prog s.reads s.turns.tail)
  rcases heffect with hmem | ⟨d', R, todo, old, j, v, hj, hv, hlt, hmem⟩
  · rw [State.dropTurn_mem] at hmem
    simp [hmem]
  · rw [State.dropTurn_mem] at hmem
    obtain ⟨hdesc, -, hoverlap, -⟩ := (State.verdict_eq_go _ _).1 hv
    have hdisjoint := d'.overlaps_eq_false.1 hoverlap
    refine ⟨fun hnot => absurd hj (hnot R todo old), fun d hd => ?_⟩
    obtain rfl : d' = d := Option.some.inj (hdesc.symm.trans hd)
    refine ⟨fun a ha => ?_, fun _ i hi => ?_⟩
    · rw [hmem, Memory.readByte_writeWord _ _ _ _ hs.mem_wf, if_neg]
      simp only [byteNumber, Config.samplesPerWord] at ha ⊢
      omega
    · rw [hmem, Memory.readWord_writeWord _ _ _ _ hs.mem_wf, if_neg (by omega)]

/-- Settles O36: the validation starts the writes with every index still to be written, and from there any order can be
picked. -/
theorem everyWriteOrderAdmitted : Obligations.EveryWriteOrderAdmitted := by
  intro s d order ts hs hm _ hj hv ho
  have hstart : State.Inv { s with job := d.startWriting s.mem } := (BlockEffect.start d hj hv).keeps_inv hs
  obtain ⟨picks, hlen, hpicks⟩ := exists_picks_of_order order ts hstart hm rfl ho
  have hn : order.length = d.wordCount := by rw [ho.length_eq, List.length_range]
  refine ⟨picks, hlen.trans hn, fun k hk => ?_⟩
  have hvalidate := step_of_verdict_go (s := { s with turns := .block 0 :: (picks.map Turn.block ++ ts) }) hm rfl hj hv
  obtain ⟨t, todo, hrun, hjob, hiff⟩ := hpicks k (hk.trans hn.ge)
  exact ⟨t, _, todo, _, by rw [Nat.add_comm, run_succ_of_next k hvalidate, ← hrun], hjob, hiff⟩

end Sys2Proof.Proofs
end

section
/-! The host's accesses to data memory (R50 to R56, R64): what a read and a write of a word or of a byte do at any STATE, and what
the host sees of the used words. -/

namespace Sys2Proof.Machine

variable {s : State}

/-- Lane `k` of a word after its byte `k` was written (R53). -/
theorem Memory.lane_readWord_writeByte (m : Memory) (a : Nat) (k : Fin 16) (v : Byte) (hm : m.wf) :
    lane ((m.writeByte (byteNumber a k.val) v).readWord a) k.val = v := by
  rw [Memory.lane_readWord _ _ k.isLt, Memory.readByte_writeByte _ _ _ _ hm, if_pos rfl]

/-- A host write of data memory below MEM_WORDS to a word that is not guarded takes effect (R50, R64). -/
theorem hostMemGuard_of_free {a : Nat} (hu : s.state = .busy → s.usesWord a = false) (hw : a < s.memWords.val)
    (k : Host.Outcome State Fault Refusal) : hostMemGuard a s k = k := by
  have hfree : ¬ (s.state = .busy ∧ s.usesWord a = true) := fun ⟨hb, h⟩ => by simp [hu hb] at h
  rw [hostMemGuard, if_neg hfree, if_pos ((s.hasWord_iff a).2 hw)]

/-- A host write to a used word while BUSY is F_BUSY_MEM (R64, R196). -/
theorem hostMemGuard_of_used {a : Nat} (hb : s.state = .busy) (hu : s.usesWord a = true)
    (k : Host.Outcome State Fault Refusal) : hostMemGuard a s k = .fault .busyMem := if_pos ⟨hb, hu⟩

/-- When STATE ≠ BUSY a host write past data memory is the model's own fault (log 11). -/
theorem hostMemGuard_past {a : Nat} (hb : s.state ≠ .busy) (hw : s.memWords.val ≤ a)
    (k : Host.Outcome State Fault Refusal) : hostMemGuard a s k = .fault .noSuchWord := by
  have hno : ¬ s.hasWord a = true := by rw [s.hasWord_iff]; omega
  rw [hostMemGuard, if_neg fun h => hb h.1, if_neg hno]

/-- A FILTER whose validation does not pass shows the host no final value (R64, log 8). -/
theorem State.earlyWords_of_not_go (hj : s.job = .pending .filter) (hv : ∀ d, s.verdict ≠ .go d) : s.earlyWords = none := by
  rw [State.earlyWords, hj]
  cases h : s.verdict with
  | go d => exact absurd h (hv d)
  | _ => rfl

/-- With no early words the host sees a word's contents (R56, R64). -/
theorem State.hostView_of_no_earlyWords (h : s.earlyWords = none) (n : Bool) (a : Nat) :
    s.hostView n a = s.mem.readWord a := by rw [State.hostView, h]

/-- The position of a word in the used output range of a descriptor (R51). -/
theorem State.outputIndex_of_go {d : Descriptor} (hv : s.verdict = .go d) (a : Nat) :
    s.outputIndex a = if inRange d.ob d.wordCount a = true then some (a - d.ob) else none := by
  obtain ⟨ob, ho, hob⟩ := State.outBase_of_go hv
  rw [State.outputIndex, Regs.inUsedRange_outBase ((s.verdict_eq_go d).1 hv).1, ho, Option.bind_some, hob]

/-- The host sees the contents of a word that is no used output word (R64). -/
theorem State.hostView_of_not_output {d : Descriptor} {a : Nat} (hv : s.verdict = .go d)
    (h : ∀ j < d.wordCount, a ≠ d.ob + j) (n : Bool) : s.hostView n a = s.mem.readWord a := by
  have hout : ¬ inRange d.ob d.wordCount a = true := by
    rw [inRange_iff]
    exact fun ⟨h1, h2⟩ => h (a - d.ob) (by omega) (by omega)
  rw [State.hostView, State.outputIndex_of_go hv, if_neg hout]
  cases s.earlyWords <;> rfl

/-- The host sees a used output word's final or old value, as the free draw says (R64). -/
theorem State.hostView_output {d : Descriptor} {R old : List PackedWord} {j : Nat} {v : PackedWord} {n : Bool}
    (hv : s.verdict = .go d) (he : s.earlyWords = some (R, old)) (hj : j < d.wordCount)
    (hget : (if n then R[j]? else old[j]?) = some v) : s.hostView n (d.ob + j) = v := by
  have hout : inRange d.ob d.wordCount (d.ob + j) = true := (inRange_iff _ _ _).2 ⟨by omega, by omega⟩
  simp only [State.hostView, he, State.outputIndex_of_go hv, if_pos hout, Nat.add_sub_cancel_left, hget, Option.getD_some]

section
variable {a : Reg32} {n : Bool} {ps : List HostLine} {ts : List Turn} (hm : s.unmarked = true) (ht : s.turns = .host n :: ts)
include hm ht

/-- A host read of a word below MEM_WORDS, or of a byte of it, returns what the host sees of the word (R53, R83). -/
theorem step_reads {v : PackedWord} (hw : a.toNat < s.memWords.val) (hview : s.hostView n a.toNat = v) :
    (s.prog = .memr a :: ps → step s = .next { s with reads := .word v :: s.reads, prog := ps, turns := ts }) ∧
    ∀ k : Fin 16, s.prog = .memrb a k :: ps →
      step s = .next { s with reads := .byte (lane v k.val) :: s.reads, prog := ps, turns := ts } := by
  subst hview
  refine ⟨fun hp => ?_, fun k hp => ?_⟩ <;> rw [step_of_line hm ht hp] <;> exact if_pos ((s.hasWord_iff _).2 hw)

/-- Where the host sees a word's contents, a byte read returns the byte's contents (R53, R56). -/
theorem step_reads_contents (hw : a.toNat < s.memWords.val) (hview : s.hostView n a.toNat = s.mem.readWord a.toNat) :
    (s.prog = .memr a :: ps →
      step s = .next { s with reads := .word (s.mem.readWord a.toNat) :: s.reads, prog := ps, turns := ts }) ∧
    ∀ k : Fin 16, s.prog = .memrb a k :: ps → step s = .next { s with
      reads := .byte (s.mem.readByte (byteNumber a.toNat k.val)) :: s.reads, prog := ps, turns := ts } := by
  refine (step_reads hm ht hw hview).imp_right fun h k => ?_
  rw [← Memory.lane_readWord _ _ k.isLt]
  exact h k

/-- A host write of a word below MEM_WORDS that is not guarded, or of a byte of it, writes the bytes it names and no other
(R50, R53, R55). -/
theorem step_writes (hwf : s.mem.wf) (hu : s.state = .busy → s.usesWord a.toNat = false) (hw : a.toNat < s.memWords.val) :
    (∀ v, s.prog = .memw a v :: ps → ∃ m : Memory, step s = .next { s with mem := m, prog := ps, turns := ts } ∧
      m.readWord a.toNat = v ∧
      ∀ b, ¬ (byteNumber a.toNat 0 ≤ b ∧ b < byteNumber a.toNat 16) → m.readByte b = s.mem.readByte b) ∧
    ∀ (k : Fin 16) (v : Byte), s.prog = .memwb a k v :: ps →
      ∃ m : Memory, step s = .next { s with mem := m, prog := ps, turns := ts } ∧
        lane (m.readWord a.toNat) k.val = v ∧
        ∀ b, b ≠ byteNumber a.toNat k.val → m.readByte b = s.mem.readByte b := by
  constructor
  · intro v hp
    refine ⟨s.mem.writeWord a.toNat v, ?_, ?_, fun b hb => ?_⟩
    · rw [step_of_line hm ht hp]
      exact hostMemGuard_of_free hu hw _
    · rw [Memory.readWord_writeWord _ _ _ _ hwf, if_pos rfl]
    · rw [Memory.readByte_writeWord _ _ _ _ hwf, if_neg hb]
  · intro k v hp
    refine ⟨s.mem.writeByte (byteNumber a.toNat k.val) v, ?_, Memory.lane_readWord_writeByte _ _ k v hwf, fun b hb => ?_⟩
    · rw [step_of_line hm ht hp]
      exact hostMemGuard_of_free hu hw _
    · rw [Memory.readByte_writeByte _ _ _ _ hwf, if_neg hb]

/-- A host write of a used word while BUSY, or of a byte of it, is F_BUSY_MEM (R64, R196). -/
theorem step_write_used (hb : s.state = .busy) (hu : s.usesWord a.toNat = true) :
    (∀ v, s.prog = .memw a v :: ps → step s = .fault .busyMem) ∧
    ∀ k v, s.prog = .memwb a k v :: ps → step s = .fault .busyMem := by
  refine ⟨fun v hp => ?_, fun k v hp => ?_⟩ <;> rw [step_of_line hm ht hp] <;> exact hostMemGuard_of_used hb hu _

/-- When STATE ≠ BUSY, a host access to a word past data memory, or to a byte of it, is the model's own fault (log 11). -/
theorem step_past_memory (hb : s.state ≠ .busy) (hw : s.memWords.val ≤ a.toNat) :
    (∀ v, s.prog = .memw a v :: ps → step s = .fault .noSuchWord) ∧
    (∀ k v, s.prog = .memwb a k v :: ps → step s = .fault .noSuchWord) ∧
    (s.prog = .memr a :: ps → step s = .fault .noSuchWord) ∧
    ∀ k, s.prog = .memrb a k :: ps → step s = .fault .noSuchWord := by
  have hno : ¬ s.hasWord a.toNat = true := by rw [s.hasWord_iff]; omega
  refine ⟨fun v hp => ?_, fun k v hp => ?_, fun hp => ?_, fun k hp => ?_⟩ <;> rw [step_of_line hm ht hp]
  · exact hostMemGuard_past hb hw _
  · exact hostMemGuard_past hb hw _
  · exact if_neg hno
  · exact if_neg hno

end

/-- While a FILTER that will write is in progress, an early read can return its result words and its old words, one of each for
every used output word (R64, log 8). -/
theorem State.Inv.earlyWords_of_go {d : Descriptor} {R old : List PackedWord} (hs : s.Inv) (hv : s.verdict = .go d)
    (hj : (∃ todo, s.job = .writing R todo old) ∨ (s.state = .busy ∧ s.job = .pending .filter ∧ R = d.result s.mem ∧
      old = s.mem.readWords d.ob d.wordCount)) :
    s.state = .busy ∧ s.filterInProgress = true ∧ s.earlyWords = some (R, old) ∧ R.length = d.wordCount ∧
      old.length = d.wordCount := by
  rcases hj with ⟨todo, hj⟩ | ⟨hb, hj, rfl, rfl⟩
  · obtain ⟨d', hd⟩ := hs.writingOk hj
    obtain rfl : d' = d := Verdict.go.inj (hd.verdict.symm.trans hv)
    exact ⟨hs.busy (by simp [hj]), by simp [State.filterInProgress, hj], by simp only [State.earlyWords, hj],
      hd.length_result, hd.old_length⟩
  · obtain ⟨-, harch, -⟩ := (s.verdict_eq_go d).1 hv
    exact ⟨hb, by simp [State.filterInProgress, hj], by simp only [State.earlyWords, hj, hv],
      d.length_result _ harch, by simp⟩

/-- The used words of a FILTER in progress, in terms of the registers (R51). -/
theorem State.usesWord_iff (s : State) (a : Nat) :
    s.usesWord a = true ↔ s.filterInProgress = true ∧ ∃ w h c b, ∃ j : Nat, s.regs.width = some w ∧ s.regs.height = some h ∧
      s.regs.channels = some c ∧ (s.regs.inBase = some b ∨ s.regs.outBase = some b) ∧
      (j : Int) < (w.toInt * h.toInt * c.toInt + 15) / 16 ∧ a = b.toNat + j := by
  rw [State.usesWord, Bool.and_eq_true, Bool.or_eq_true, Regs.inUsedRange_iff, Regs.inUsedRange_iff]
  refine and_congr_right fun _ => ⟨?_, ?_⟩
  · rintro (⟨w, h, c, b, j, hw, hh, hc, hb, hj⟩ | ⟨w, h, c, b, j, hw, hh, hc, hb, hj⟩)
    · exact ⟨w, h, c, b, j, hw, hh, hc, .inl hb, hj⟩
    · exact ⟨w, h, c, b, j, hw, hh, hc, .inr hb, hj⟩
  · rintro ⟨w, h, c, b, j, hw, hh, hc, hb | hb, hj⟩
    · exact .inl ⟨w, h, c, b, j, hw, hh, hc, hb, hj⟩
    · exact .inr ⟨w, h, c, b, j, hw, hh, hc, hb, hj⟩

/-- The used words of a FILTER in progress that passes validation, index by index (R51). -/
theorem State.usesWord_iff_of_go {d : Descriptor} (hf : s.filterInProgress = true) (hv : s.verdict = .go d) (a : Nat) :
    s.usesWord a = true ↔ ∃ j < d.wordCount, a = d.ib + j ∨ a = d.ob + j := by
  rw [State.usesWord_of_descriptor hf ((s.verdict_eq_go d).1 hv).1, Bool.or_eq_true, inRange_iff, inRange_iff]
  constructor
  · rintro (h | h)
    · exact ⟨a - d.ib, by omega, .inl (by omega)⟩
    · exact ⟨a - d.ob, by omega, .inr (by omega)⟩
  · rintro ⟨j, hj, h | h⟩ <;> omega

end Sys2Proof.Machine
end

section
/-! The statements about the host's accesses to data memory (R50, R53, R56, R64). -/

namespace Sys2Proof.Proofs
open Sys2Proof.Machine

/-- Settles O38: a used output word shows its old or final value, a write to a used word is guarded, and every other access is as
when not BUSY. -/
theorem hostDataAccessWhileBusy : Obligations.HostDataAccessWhileBusy := by
  intro s d R old a n ps ts hs hm hv ht hj
  obtain ⟨hb, hf, hearly, hR, hold⟩ := hs.earlyWords_of_go hv hj
  obtain ⟨-, -, -, hpast⟩ := (s.verdict_eq_go d).1 hv
  have hbound := (d.pastMemory_eq_false _).1 hpast
  have hused := State.usesWord_iff_of_go hf hv a.toNat
  refine ⟨fun j hlt ha => ?_, fun h => step_write_used hm ht hb (hused.2 h), fun h hw => ?_, fun h hw => ?_⟩
  · obtain ⟨v, hget⟩ : ∃ v, (if n then R[j]? else old[j]?) = some v := by
      cases n
      · exact ⟨_, List.getElem?_eq_getElem (hold.symm ▸ hlt)⟩
      · exact ⟨_, List.getElem?_eq_getElem (hR.symm ▸ hlt)⟩
    exact ⟨v, hget, step_reads hm ht (by omega) (ha ▸ State.hostView_output hv hearly hlt hget)⟩
  · exact step_reads_contents hm ht hw (State.hostView_of_not_output hv h n)
  · refine step_writes hm ht hs.mem_wf (fun _ => Bool.eq_false_iff.2 fun hu => ?_) hw
    obtain ⟨j, hlt, ha⟩ := hused.1 hu
    exact ha.elim (h j hlt).1 (h j hlt).2

/-- Settles O40: when not BUSY there is no job, so nothing is guarded and a read returns the contents. -/
theorem hostDataAccess : Obligations.HostDataAccess := by
  intro s a n ps ts hs hm hb ht
  refine ⟨fun hw => ?_, step_past_memory hm ht hb⟩
  have hearly : s.earlyWords = none := by rw [State.earlyWords, hs.job_of_not_busy hb]
  obtain ⟨hword, hbyte⟩ := step_writes hm ht hs.mem_wf (fun h => absurd h hb) hw
  exact ⟨hword, hbyte, step_reads_contents hm ht hw (State.hostView_of_no_earlyWords hearly n _)⟩

/-- Settles O58: a command that will not write has no early words, and the guard is the used ranges of the registers. -/
theorem hostDataAccessBesideOtherCommands : Obligations.HostDataAccessBesideOtherCommands := by
  intro s a n ps ts hs hm _ ht hw hj
  have hearly : s.earlyWords = none := by
    rcases hj with ⟨v, hj⟩ | ⟨hj, hv⟩
    · rw [State.earlyWords, hj]
    · exact State.earlyWords_of_not_go hj hv
  obtain ⟨hword, hbyte⟩ := step_reads_contents hm ht hw (State.hostView_of_no_earlyWords hearly n _)
  refine ⟨hword, hbyte, fun hfree => step_writes hm ht hs.mem_wf (fun _ => Bool.eq_false_iff.2 fun hu => ?_) hw⟩
  obtain ⟨hf, w, h, c, b, j, hwd, hh, hc, hb, hlt, ha⟩ := (s.usesWord_iff _).1 hu
  rcases hj with ⟨v, hj⟩ | ⟨hj, -⟩
  · simp [State.filterInProgress, hj] at hf
  · exact hfree hj w h c b hwd hh hc hb j hlt ha

end Sys2Proof.Proofs
end

section
/-! Binary32 patterns as counts of the smallest subnormal, `2^(-149)` (R75 to R77, R84): the fields give the count, the count
gives the fields back, and the value is the signed count. -/

namespace Sys2Proof.Machine

/-- The magnitude of the finite pattern with exponent field `e` and fraction `f`, in units of `2^(-149)` (R76). -/
def f32units (e f : Nat) : Nat := if e = 0 then f else (2 ^ 23 + f) * 2 ^ (e - 1)

@[simp] theorem f32units_zero (f : Nat) : f32units 0 f = f := rfl

@[simp] theorem f32units_succ (k f : Nat) : f32units (k + 1) f = (2 ^ 23 + f) * 2 ^ k := rfl

/-- Only the fields of a zero have the magnitude 0 (R77). -/
theorem f32units_eq_zero (e f : Nat) : f32units e f = 0 ↔ e = 0 ∧ f = 0 := by cases e <;> simp

/-- The exponent field is the position of the leading one of a normal magnitude. -/
theorem log2_f32units_succ (k : Nat) {f : Nat} (hf : f < 2 ^ 23) : Nat.log2 (f32units (k + 1) f) = k + 23 := by
  rw [f32units_succ, Nat.log2_eq_iff (by positivity), pow_add, pow_add, pow_add, Nat.mul_comm (2 ^ k)]
  have := Nat.two_pow_pos k
  exact ⟨Nat.mul_le_mul_right _ (by omega), by nlinarith⟩

/-- The encoder recovers the fields of a finite pattern from its magnitude (R76 read backwards). -/
theorem f32fields_f32units {e f : Nat} (he : e ≤ 254) (hf : f < 2 ^ 23) : f32fields (f32units e f) = some (e, f) := by
  cases e with
  | zero => rw [f32units_zero, f32fields, if_pos hf]
  | succ k =>
    have hlog : Nat.log2 (f32units (k + 1) f) - 23 = k := by rw [log2_f32units_succ k hf]; omega
    have hlarge : ¬ f32units (k + 1) f < 2 ^ 23 := by
      rw [f32units_succ, Nat.not_lt]
      exact (Nat.le_add_right _ f).trans (Nat.le_mul_of_pos_right _ (Nat.two_pow_pos k))
    rw [f32fields, if_neg hlarge, hlog, f32units_succ, if_pos ⟨he, Nat.mul_mod_left _ _⟩,
      Nat.mul_div_cancel _ (Nat.two_pow_pos k), Nat.add_sub_cancel_left]

/-- The fields the encoder gives are those of a finite pattern of that magnitude (R76). -/
theorem f32units_of_f32fields {m e f : Nat} (h : f32fields m = some (e, f)) : e ≤ 254 ∧ f < 2 ^ 23 ∧ f32units e f = m := by
  unfold f32fields at h
  split_ifs at h with hsmall hnormal
  · cases h
    exact ⟨by omega, hsmall, rfl⟩
  · obtain ⟨hexp, hdvd⟩ := hnormal
    have hm : m ≠ 0 := by omega
    have hlog : 23 ≤ Nat.log2 m := (Nat.le_log2 hm).2 (by omega)
    have hsplit : Nat.log2 m = 23 + (Nat.log2 m - 23) := by omega
    have hlow : 2 ^ 23 * 2 ^ (Nat.log2 m - 23) ≤ m := by rw [← pow_add, ← hsplit]; exact Nat.log2_self_le hm
    have hhigh : m < 2 ^ 24 * 2 ^ (Nat.log2 m - 23) := by
      rw [← pow_add, show 24 + (Nat.log2 m - 23) = Nat.log2 m + 1 by omega]; exact Nat.lt_log2_self
    generalize Nat.log2 m - 23 = k at *
    cases h
    have hquot : 2 ^ 23 ≤ m / 2 ^ k := (Nat.le_div_iff_mul_le (Nat.two_pow_pos k)).2 hlow
    have hquot' : m / 2 ^ k < 2 ^ 24 := (Nat.div_lt_iff_lt_mul (Nat.two_pow_pos k)).2 hhigh
    refine ⟨hexp, by omega, ?_⟩
    rw [f32units_succ, Nat.add_sub_cancel' hquot, Nat.div_mul_cancel (Nat.dvd_of_mod_eq_zero hdvd)]

/-- The fields of a packed pattern (R75). -/
theorem fields_f32pack (s : Bool) {e f : Nat} (he : e < 255) (hf : f < 2 ^ 23) :
    f32sign (f32pack s e f) = s ∧ f32exp (f32pack s e f) = e ∧ f32frac (f32pack s e f) = f := by
  rw [f32sign_eq, f32exp_eq, f32frac_eq, toNat_f32pack s he hf]
  cases s
  · exact ⟨decide_eq_false (by simp; omega), by simp; omega, by simp; omega⟩
  · exact ⟨decide_eq_true (by simp; omega), by simp; omega, by simp; omega⟩

/-- The fraction field has 23 bits (R75). -/
theorem f32frac_lt (b : Reg32) : f32frac b < 2 ^ 23 := by rw [f32frac_eq]; omega

/-- A finite pattern is its three fields packed (R75). -/
theorem f32pack_fields {b : Reg32} (h : f32finite b = true) : f32pack (f32sign b) (f32exp b) (f32frac b) = b := by
  have hexp := (f32finite_iff b).1 h
  have hb := b.isLt
  apply BitVec.eq_of_toNat_eq
  rw [toNat_f32pack _ (by omega) (f32frac_lt b)]
  rw [f32exp_eq] at *
  rw [f32frac_eq, f32sign_eq]
  simp only [decide_eq_true_eq]
  split_ifs <;> omega

/-- The value of a finite pattern is its signed count of `2^(-149)` (R76). -/
theorem f32val_eq_units {b : Reg32} (h : f32finite b = true) :
    f32val b = signValue (f32sign b) * (f32units (f32exp b) (f32frac b) / 2 ^ 149) := by
  have hexp := (f32finite_iff b).1 h
  unfold f32val
  generalize f32exp b = e at *
  cases e with
  | zero =>
    rw [if_pos rfl, f32units_zero, zpow_neg, mul_assoc, div_eq_mul_inv]
    norm_cast
  | succ k =>
    have hpow : (2 : Rat) ^ (((k + 1 : Nat) : Int) - 150) = 2 ^ k / 2 ^ 149 := by
      rw [show ((k + 1 : Nat) : Int) - 150 = (k : Int) - (149 : Nat) by push_cast; ring, zpow_sub₀ two_ne_zero,
        zpow_natCast, zpow_natCast]
    rw [if_neg k.succ_ne_zero, if_pos hexp, f32units_succ, hpow]
    push_cast
    ring

/-- `(-1)^s` is not 0. -/
theorem signValue_ne_zero (s : Bool) : signValue s ≠ 0 := by cases s <;> simp [signValue]

@[simp] theorem abs_signValue (s : Bool) : |signValue s| = 1 := by cases s <;> simp [signValue]

/-- The magnitude of a finite pattern's value is its count of `2^(-149)` (R76). -/
theorem abs_f32val {b : Reg32} (h : f32finite b = true) : |f32val b| = f32units (f32exp b) (f32frac b) / 2 ^ 149 := by
  rw [f32val_eq_units h, abs_mul, abs_signValue, one_mul, abs_of_nonneg (by positivity)]

/-- The value of a finite pattern is 0 exactly when the pattern is a zero (R76, R77). -/
theorem f32val_eq_zero_iff {b : Reg32} (h : f32finite b = true) : f32val b = 0 ↔ f32isZero b = true := by
  rw [f32isZero_iff, ← f32units_eq_zero, ← abs_eq_zero, abs_f32val h]
  simp

/-- A decimal's magnitude is not negative. -/
theorem Decimal.magnitude_nonneg (d : Decimal) : 0 ≤ d.magnitude := by unfold Decimal.magnitude; positivity

/-- The magnitude of a decimal's value. -/
theorem Decimal.abs_value (d : Decimal) : |d.value| = d.magnitude := by
  rw [Decimal.value, abs_mul, abs_signValue, one_mul, abs_of_nonneg d.magnitude_nonneg]

/-- A rational number that is not negative and has the denominator 1 is the natural number its numerator is. -/
theorem eq_natCast_of_den_eq_one {q : Rat} (h : 0 ≤ q) (hden : q.den = 1) : q = (q.num.toNat : Nat) := by
  rw [← Int.cast_natCast, Int.toNat_of_nonneg (Rat.num_nonneg.2 h), Rat.coe_int_num_of_den_eq_one hden]

/-- A decimal has a pattern exactly when its magnitude is that of a finite pattern, and then it is that one with the decimal's
sign (R84). -/
theorem f32ofDecimal_eq_some {d : Decimal} {b : Reg32} :
    f32ofDecimal d = some b ↔
      ∃ e f, e ≤ 254 ∧ f < 2 ^ 23 ∧ d.magnitude * 2 ^ 149 = f32units e f ∧ f32pack d.neg e f = b := by
  constructor
  · intro h
    unfold f32ofDecimal at h
    split_ifs at h with hden
    cases hfields : f32fields (d.magnitude * 2 ^ 149).num.toNat with
    | none => simp [hfields] at h
    | some p =>
      obtain ⟨e, f⟩ := p
      obtain ⟨he, hf, hunits⟩ := f32units_of_f32fields hfields
      have hnonneg : 0 ≤ d.magnitude * 2 ^ 149 := mul_nonneg d.magnitude_nonneg (by positivity)
      refine ⟨e, f, he, hf, ?_, by simpa only [hfields, Option.some.injEq] using h⟩
      rw [hunits, ← eq_natCast_of_den_eq_one hnonneg hden]
  · rintro ⟨e, f, he, hf, hunits, rfl⟩
    rw [f32ofDecimal, hunits, Rat.den_natCast, if_pos rfl, Rat.num_natCast, Int.toNat_natCast, f32fields_f32units he hf]

end Sys2Proof.Machine
end

section
/-! The statements about binary32 patterns (R75 to R77, R84). -/

namespace Sys2Proof.Proofs
open Sys2Proof.Machine

/-- Settles O12: the magnitude is a count of `2^(-149)`, and that count gives the fields back. -/
theorem binary32RoundTrip : Obligations.Binary32RoundTrip := by
  intro b hb
  have hexp := (f32finite_iff b).1 hb
  have hcount : |f32val b| * 2 ^ 149 = (f32units (f32exp b) (f32frac b) : Nat) := by
    rw [abs_f32val hb, div_mul_cancel₀ _ (by positivity)]
  rw [hcount, Rat.den_natCast, Rat.num_natCast, Int.toNat_natCast]
  exact ⟨rfl, f32fields_f32units hexp (f32frac_lt b), f32pack_fields hb⟩

/-- Settles O10: the value is the signed count of `2^(-149)`, and a zero counts none. -/
theorem binary32Value : Obligations.Binary32Value := by
  rintro b s e f rfl he hf
  obtain ⟨hs, hexp, hfrac⟩ := fields_f32pack s he hf
  have hfinite : f32finite (f32pack s e f) = true := (f32finite_iff _).2 (by omega)
  have hval := f32val_eq_units hfinite
  rw [hs, hexp, hfrac, signValue] at hval
  refine ⟨⟨hs, hexp, hfrac⟩, ?_, ?_, (f32val_eq_zero_iff (by decide)).2 (by decide),
    (f32val_eq_zero_iff (by decide)).2 (by decide)⟩
  · rintro rfl
    rw [hval, f32units_zero, mul_div_assoc]
  · intro hpos
    obtain ⟨k, rfl⟩ := Nat.exists_eq_add_of_le' hpos
    rw [hval, f32units_succ, pow_succ _ 149, pow_succ _ k]
    push_cast
    ring

/-- Settles O11: a magnitude is 0 only when both fields are. -/
theorem finiteValueIsZeroOnlyForZeros : Obligations.FiniteValueIsZeroOnlyForZeros := fun _ => f32val_eq_zero_iff

/-- Settles O13: the encoder answers exactly the decimals whose magnitude is that of a finite pattern. -/
theorem decimalPatternIsExact : Obligations.DecimalPatternIsExact := by
  constructor
  · intro d b h
    obtain ⟨e, f, he, hf, hunits, rfl⟩ := f32ofDecimal_eq_some.1 h
    obtain ⟨hs, hexp, hfrac⟩ := fields_f32pack d.neg (Nat.lt_succ_of_le he) hf
    have hfinite : f32finite (f32pack d.neg e f) = true := (f32finite_iff _).2 (hexp.trans_le he)
    refine ⟨hfinite, ?_⟩
    rw [f32val_eq_units hfinite, hs, hexp, hfrac, ← hunits, mul_div_cancel_right₀ _ (by positivity), Decimal.value]
  · intro d b hb hval
    refine Option.isSome_iff_exists.2 ⟨_, f32ofDecimal_eq_some.2
      ⟨f32exp b, f32frac b, (f32finite_iff b).1 hb, f32frac_lt b, ?_, rfl⟩⟩
    rw [← d.abs_value, ← hval, abs_f32val hb, div_mul_cancel₀ _ (by positivity)]

end Sys2Proof.Proofs
end

section
/-! The command words (R70, R71, R82): a value is its two fields, and so decodes to an instruction exactly when it is that one's
command word. -/

namespace Sys2Proof

/-- A CTRL value is its field RSVD above its field OP (R70). -/
theorem ctrlRsvd_append_ctrlOp (v : Reg32) : ctrlRsvd v ++ ctrlOp v = v :=
  (BitVec.extractLsb'_append_extractLsb'_eq_extractLsb' rfl).trans BitVec.extractLsb'_eq_self

@[simp] theorem ctrlRsvd_encode (i : Instr) : ctrlRsvd (encode i) = 0 := BitVec.extractLsb'_append_eq_left

@[simp] theorem ctrlOp_encode (i : Instr) : ctrlOp (encode i) = opcode i := BitVec.extractLsb'_append_eq_right

/-- The command word of an instruction is the value with RSVD = 0 and its operation code (R70, R71). -/
theorem eq_encode_iff (v : Reg32) (i : Instr) : v = encode i ↔ ctrlRsvd v = 0 ∧ ctrlOp v = opcode i := by
  constructor
  · rintro rfl
    exact ⟨ctrlRsvd_encode i, ctrlOp_encode i⟩
  · rintro ⟨hrsvd, hop⟩
    rw [encode, ← hrsvd, ← hop, ctrlRsvd_append_ctrlOp]

/-- A value decodes to an instruction exactly when it is that one's command word (R70, R71, R82). -/
theorem decodeCtrl_eq_instr (v : Reg32) (i : Instr) : decodeCtrl v = .instr i ↔ v = encode i := by
  rw [eq_encode_iff]
  constructor
  · intro h
    unfold decodeCtrl at h
    split_ifs at h with hrsvd hclear hfilter <;> cases h
    · exact ⟨hrsvd, hclear⟩
    · exact ⟨hrsvd, hfilter⟩
  · rintro ⟨hrsvd, hop⟩
    rw [decodeCtrl, if_pos hrsvd, hop]
    cases i <;> rfl

/-- A value that is no command word is reserved (R72, R82). -/
theorem decodeCtrl_eq_reserved {v : Reg32} (h : ∀ i, v ≠ encode i) : decodeCtrl v = .reserved v := by
  unfold decodeCtrl
  split_ifs with hrsvd hclear hfilter
  · exact absurd ((eq_encode_iff v .clear).2 ⟨hrsvd, hclear⟩) (h .clear)
  · exact absurd ((eq_encode_iff v .filter).2 ⟨hrsvd, hfilter⟩) (h .filter)
  · rfl
  · rfl

/-- The table decoder reads an instruction from its command word (R71). -/
theorem decodeTableWord_encode (n : Nat) (i : Instr) : decodeTableWord n (encode i).toNat = some i := by
  have hdecode := (decodeCtrl_eq_instr (encode i) i).2 rfl
  rw [decodeTableWord, if_pos (BitVec.isLt _), BitVec.ofNat_toNat, BitVec.setWidth_eq, hdecode]

/-- The command word of CLEAR (R71). -/
theorem encode_clear : encode .clear = 0x00000000 := by decide

/-- The command word of FILTER (R71). -/
theorem encode_filter : encode .filter = 0x00000001 := by decide

/-- The three verdicts of the CTRL decoder (R82). -/
theorem decodeCtrl_eq_ite (v : Reg32) :
    decodeCtrl v = if v = 0x00000000 then .instr .clear else if v = 0x00000001 then .instr .filter else .reserved v := by
  split_ifs with hclear hfilter
  · rw [decodeCtrl_eq_instr, encode_clear, hclear]
  · rw [decodeCtrl_eq_instr, encode_filter, hfilter]
  · refine decodeCtrl_eq_reserved fun i => ?_
    cases i
    · rwa [encode_clear]
    · rwa [encode_filter]

end Sys2Proof
end

section
/-! What STATUS reads (R26, R27, R73, R74), and the host's lines that write CTRL (R82, R150). -/

namespace Sys2Proof.Machine

variable {s : State}

/-- The rows of R73's table: the values of STATE and ERR that occur together (R26, R27). -/
def statusRows : List (BlockState × ErrCode) :=
  [(.idle, .none), (.busy, .none), (.done, .none), (.error, .shape), (.error, .config), (.error, .illegal)]

/-- Outside ERROR, ERR is NONE (R27). -/
theorem State.Inv.err_of_not_error (h : s.Inv) (hs : s.state ≠ .error) : s.err = .none := by
  by_contra he
  exact hs (h.err_iff.1 he)

/-- The invariant admits the rows of R73's table only (R27). -/
theorem State.Inv.mem_statusRows (h : s.Inv) : (s.state, s.err) ∈ statusRows := by
  have herr := h.err_iff
  cases hs : s.state <;> cases he : s.err <;> simp [hs, he, statusRows] at herr ⊢

/-- The value of each row of R73's table, and its decoding (R73, R74). -/
theorem statusWord_of_mem_statusRows : ∀ p ∈ statusRows,
    statusWord p.1 p.2 ∈ [0x00000000, 0x00000001, 0x00000002, 0x00000013, 0x00000023, (0x00000033 : Reg32)] ∧
      decodeStatus (statusWord p.1 p.2) = some p := by decide

/-- An instruction of the opcode table is the fault F_BUSY_WRITE while STATE = BUSY (R161). -/
theorem exec_of_busy (hb : s.state = .busy) (i : Instr) : exec i s = .fault .busyWrite := by
  cases i <;> exact unlessBusy_of_busy hb _

/-- A write to CTRL of a value that decodes to an instruction is that instruction, at any STATE (R150, R161). -/
theorem hostWrite_ctrl {i : Instr} {v : Reg32} (hv : decodeCtrl v = .instr i) : hostWrite 0x00 4 v s = exec i s := by
  by_cases hb : s.state = .busy
  · rw [exec_of_busy hb]
    exact unlessBusy_of_busy hb _
  · have hwrite : hostWrite 0x00 4 v s = runCtrl v s := hostWrite_offset hb .ctrl v
    rw [hwrite, runCtrl, hv]

/-- The step of the host's write of a command word to CTRL is the instruction (R150, R158). -/
theorem step_of_ctrlLine {i : Instr} {v : Reg32} {n : Bool} {ps : List HostLine} {ts : List Turn} (hm : s.unmarked = true)
    (ht : s.turns = .host n :: ts) (hp : s.prog = ctrlLine v :: ps) (hv : decodeCtrl v = .instr i) :
    step s = exec i { s with prog := ps, turns := ts } := by
  rw [step_of_line hm ht hp]
  exact hostWrite_ctrl hv

end Sys2Proof.Machine
end

section
/-! The statements about the command words and STATUS (R70 to R74, R82, R150). -/

namespace Sys2Proof.Proofs
open Sys2Proof.Machine

/-- Settles O9: the invariant admits six pairs of STATE and ERR, the rows of R73's table. -/
theorem statusReadsTheTable : Obligations.StatusReadsTheTable := by
  intro s hs
  have row : ∀ {st e v}, statusWord st e = v → s.state = st → s.err = e → s.status = v := fun hv hst he => by
    rw [State.status, hst, he, hv]
  have noError : ∀ {st}, s.state = st → st ≠ .error → s.err = .none := fun h hne => hs.err_of_not_error (h ▸ hne)
  obtain ⟨hvalue, hdecode⟩ := statusWord_of_mem_statusRows _ hs.mem_statusRows
  exact ⟨rfl, fun h => row statusWord_idle_none h (noError h (by decide)),
    fun h => row (by decide) h (noError h (by decide)), fun h => row (by decide) h (noError h (by decide)), row (by decide), row (by decide), row (by decide), hvalue, hdecode⟩

/-- Settles O5: the two command words decode to their instructions, every other value is reserved. -/
theorem decodeCtrlVerdicts : Obligations.DecodeCtrlVerdicts := decodeCtrl_eq_ite

/-- Settles O6: each word is one of the decoder's three verdicts. -/
theorem specCommandWordsDecode : Obligations.SpecCommandWordsDecode := by
  have reserved : ∀ v ∈ [0x00000002, 0x0000000F, 0x00000010, 0x00000011, 0x80000001, (0xFFFFFFFF : Reg32)],
      v ≠ 0x00000000 ∧ v ≠ 0x00000001 := by simp
  refine ⟨decodeCtrl_eq_ite _, decodeCtrl_eq_ite _, fun v hv => ?_, decodeTableWord_encode 32 .clear,
    decodeTableWord_encode 32 .filter, by decide⟩
  obtain ⟨hclear, hfilter⟩ := reserved v hv
  rw [decodeCtrl_eq_ite, if_neg hclear, if_neg hfilter]

/-- Settles O7: a value is its two fields, and a command word has RSVD = 0 and the instruction's OP. -/
theorem commandEncodingRoundTrip : Obligations.CommandEncodingRoundTrip :=
  fun i v => ⟨decodeCtrl_eq_instr v i, ctrlRsvd_encode i, ctrlOp_encode i, decodeTableWord_encode 32 i⟩

/-- Settles O14: the step is the host's line, a write to CTRL; a placed command word is such a line. -/
theorem stepRunsDecodedCommand : Obligations.StepRunsDecodedCommand := by
  refine ⟨fun s i v n ps ts hm ht hp hv => step_of_ctrlLine hm ht hp hv, fun s i nbits hm => ?_⟩
  have hword : decodeCtrl (BitVec.ofNat 32 (encode i).toNat) = .instr i := by
    rw [decodeCtrl_eq_instr, BitVec.ofNat_toNat, BitVec.setWidth_eq]
  exact step_of_ctrlLine (s := s.withFetchWord nbits (encode i).toNat) hm rfl rfl hword

end Sys2Proof.Proofs
end

section
/-! The lines WRF and POLL (R84), the descriptor in terms of the registers (R78 to R81), and what the result of a FILTER depends
on (R80, R132). -/

namespace Sys2Proof.Machine

variable {s t : State}

/-- A WRF line whose decimal has a pattern is the write of it (R84). -/
theorem hostWriteFloat_of_some {off : Offset} {d : Decimal} {b : Reg32} (h : f32ofDecimal d = some b) :
    hostWriteFloat off d s = hostWrite off 4 b s := by
  rw [hostWriteFloat, h]

/-- A WRF line whose decimal has no pattern is refused (R84, R178). -/
theorem hostWriteFloat_of_none {off : Offset} {d : Decimal} (h : f32ofDecimal d = none) :
    hostWriteFloat off d s = .refused .wrfNotRepresentable := by
  rw [hostWriteFloat, h]

/-- POLL while STATE = BUSY keeps its line (R84). -/
theorem hostPoll_of_busy (hb : s.state = .busy) :
    hostPoll s = .next { s.sawValue (.reg s.status) with prog := .poll :: s.prog } := by
  rw [hostPoll, if_pos hb]

/-- POLL when STATE ≠ BUSY drops its line (R84). -/
theorem hostPoll_of_not_busy (hb : s.state ≠ .busy) : hostPoll s = .next (s.sawValue (.reg s.status)) := by
  rw [hostPoll, if_neg hb]
  rfl

/-- A validation that passes starts the writes, whichever schedule gave the block its turn (R153). -/
theorem job_of_validation {d : Descriptor} {pick : Nat} (hj : s.job = .pending .filter) (hturn : s.turn = .block pick)
    (hv : s.verdict = .go d) (h : step s = .next t) : t.job = d.startWriting s.mem := by
  have hblock := runTurn_of_step h
  have hv' : s.dropTurn.verdict = .go d := hv
  have hj' : s.dropTurn.job = .pending .filter := hj
  simp only [hturn, runTurn, blockStep, hj', validate, hv'] at hblock
  cases hblock
  rfl

/-- A descriptor is its fields; the weights are compared one by one. -/
theorem Descriptor.ext_fields {d e : Descriptor} (hW : d.W = e.W) (hH : d.H = e.H) (hC : d.C = e.C) (hd : d.d = e.d)
    (hw : ∀ k : Fin 9, d.w[k.val] = e.w[k.val]) (hib : d.ib = e.ib) (hiw : d.iw = e.iw) (hob : d.ob = e.ob)
    (how : d.ow = e.ow) : d = e := by
  have hw : d.w = e.w := Vector.ext fun k hk => hw ⟨k, hk⟩
  cases d
  cases e
  simp only at *
  subst_vars
  rfl

end Sys2Proof.Machine
end

section
/-! The statements about the descriptor, the result and the lines WRF and POLL (R78 to R81, R84, R132, R178). -/

namespace Sys2Proof.Proofs
open Sys2Proof.Machine

/-- Settles O24: the descriptor is `Regs.readDescriptor`, and each register it reads holds its value. -/
theorem descriptorReadsRegisters : Obligations.DescriptorReadsRegisters := by
  intro r d
  rw [Regs.descriptor_eq_some]
  constructor
  · rintro ⟨hall, rfl⟩
    have hget := Regs.get_of_allWritten hall
    exact ⟨⟨_, _, _, hget .width, hget .height, hget .channels, rfl, rfl, rfl⟩, hget .divisor,
      fun k => by rw [Regs.readDescriptor_weight, hget], _, _, _, _, hget .inBase, hget .inWords, hget .outBase,
      hget .outWords, rfl, rfl, rfl, rfl⟩
  · rintro ⟨⟨w, h, c, hw, hh, hc, hW, hH, hC⟩, hdiv, hweight, ib, iw, ob, ow, hib, hiw, hob, how, eib, eiw, eob, eow⟩
    have hall : ∀ o, r.get o ≠ none := by
      intro o
      cases o <;> simp [*]
    have held : ∀ {o v}, r.get o = some v → v = r.value o := fun h => (Regs.value_of_get h).symm
    have weights : ∀ k : Fin 9, d.w[k.val] = r.readDescriptor.w[k.val] := fun k => by
      rw [held (hweight k), Regs.readDescriptor_weight]
    exact ⟨r.allWritten_iff.2 hall, Descriptor.ext_fields (hW.trans (congrArg BitVec.toInt (held hw)))
      (hH.trans (congrArg BitVec.toInt (held hh))) (hC.trans (congrArg BitVec.toInt (held hc))) (held hdiv) weights
      (eib.trans (congrArg BitVec.toNat (held hib))) (eiw.trans (congrArg BitVec.toNat (held hiw)))
      (eob.trans (congrArg BitVec.toNat (held hob))) (eow.trans (congrArg BitVec.toNat (held how)))⟩

/-- Settles O37: both validations start writing, and the result words depend on the input words alone. -/
theorem resultDependsOnDescriptorAndInput : Obligations.ResultDependsOnDescriptorAndInput := by
  intro s s' t t' d pick pick' hj hj' hturn hturn' hv hv' hinput h h'
  have hresult : d.result s'.mem = d.result s.mem := (Descriptor.result_congr hinput).symm
  have ht' := job_of_validation hj' hturn' hv' h'
  rw [Descriptor.startWriting, hresult] at ht'
  exact ⟨_, _, _, _, job_of_validation hj hturn hv h, ht'⟩

/-- Settles O41: the step is the POLL line, which stays while STATE = BUSY. -/
theorem pollRepeatsWhileBusy : Obligations.PollRepeatsWhileBusy := by
  intro s n ps ts hm ht hp
  rw [step_of_line hm ht hp]
  refine ⟨fun hb => ?_, fun hb => hostPoll_of_not_busy (s := { s with prog := ps, turns := ts }) hb⟩
  rw [runLine, hostPoll_of_busy (s := { s with prog := ps, turns := ts }) hb, ← hp]
  rfl

/-- Settles O42: the step is the WRF line, a write of the pattern or the refusal. -/
theorem wrfWritesThePattern : Obligations.WrfWritesThePattern := by
  intro s off d n ps ts hm ht hp
  have hstep : step s = hostWriteFloat off d { s with prog := ps, turns := ts } := step_of_line hm ht hp
  constructor
  · intro b hb
    rw [hstep, hostWriteFloat_of_some hb]
    exact (step_of_line (s := { s with prog := .wr off 4 b :: ps }) hm ht rfl).symm
  · intro hnone
    have hrefused : step s = .refused .wrfNotRepresentable := hstep.trans (hostWriteFloat_of_none hnone)
    exact ⟨hrefused, by rw [advance_of_refused hrefused]⟩

end Sys2Proof.Proofs
end

section
/-! PACK after UNPACK (R100, R103, R106, R107, R109): every flat index is the index of its own coordinates, the samples of packed
words determine them, and which samples a packed word and a result word depend on. -/

namespace Sys2Proof.Machine

/-- A flat index is the index of its own coordinates (R100). -/
theorem idx_coords (W C i : Nat) : idx W C (idxX W C i) (idxY W C i) (idxC C i) = i := by
  rw [idx, idxX, idxY, idxC, Nat.div_add_mod', Nat.div_add_mod']

/-- A trailing lane is 0x00 (R107). -/
theorem packByte_of_le (G : Grid) {W H C i : Nat} (hi : gridSamples W H C ≤ i) : packByte G W H C i = 0x00 :=
  if_neg hi.not_gt

/-- PACK of an unpacked grid puts back the samples below `N` and zeros the others (R103, R106, R107). -/
theorem packByte_unpack (IN : List PackedWord) (W H C i : Nat) :
    packByte (unpack IN W C) W H C i = if i < gridSamples W H C then sampleAt IN i else 0x00 := by
  rw [packByte, unpack, idx_coords]

/-- Lane `k` of word `j` of what PACK gives (R106). -/
theorem lane_of_getElem?_pack {G : Grid} {W H C j k : Nat} {w : PackedWord} (hw : (pack G W H C)[j]? = some w)
    (hk : k < 16) : lane w k = packByte G W H C (16 * j + k) := by
  obtain ⟨hj, rfl⟩ := List.getElem?_eq_some_iff.1 hw
  rw [lane_getElem _ hj hk]
  rw [pack_length] at hj
  exact sampleAt_pack G W H C (by omega)

/-- A trailing lane of a word PACK gives is 0x00 (R107). -/
theorem trailing_lane_pack {G : Grid} {W H C j k : Nat} {w : PackedWord} (hw : (pack G W H C)[j]? = some w)
    (hk : k < 16) (hi : gridSamples W H C ≤ 16 * j + k) : lane w k = 0x00 := by
  rw [lane_of_getElem?_pack hw hk, packByte_of_le G hi]

/-- Two lists of as many words with the same samples are equal (R102). -/
theorem words_ext {L L' : List PackedWord} (hlen : L.length = L'.length)
    (h : ∀ i < 16 * L.length, sampleAt L i = sampleAt L' i) : L = L' := by
  refine List.ext_getElem hlen fun j hj hj' => lane_ext fun k hk => ?_
  rw [lane_getElem L hj hk, lane_getElem L' hj' hk, h _ (by omega)]

/-- Sample `i` of the packed unpacked words (R109). -/
theorem sampleAt_pack_unpack (IN : List PackedWord) {W H C i : Nat} (hi : i < 16 * gridWords W H C) :
    sampleAt (pack (unpack IN W C) W H C) i = if i < gridSamples W H C then sampleAt IN i else 0x00 := by
  rw [sampleAt_pack _ W H C hi, packByte_unpack]

/-- PACK after UNPACK gives `NW` words back exactly when their trailing lanes are 0x00 (R109). -/
theorem pack_unpack_eq_iff {IN : List PackedWord} {W H C : Nat} (hlen : IN.length = gridWords W H C) :
    pack (unpack IN W C) W H C = IN ↔ ∀ i < 16 * IN.length, gridSamples W H C ≤ i → sampleAt IN i = 0x00 := by
  constructor
  · intro heq i hi hN
    rw [hlen] at hi
    rw [← heq, sampleAt_pack_unpack IN hi, if_neg hN.not_gt]
  · intro htrailing
    refine words_ext (by rw [pack_length, hlen]) fun i hi => ?_
    rw [pack_length] at hi
    rw [sampleAt_pack_unpack IN hi]
    split_ifs with hN
    · rfl
    · exact (htrailing i (hlen ▸ hi) (not_lt.1 hN)).symm

/-- UNPACK reads the samples below `N` only (R103, R105). -/
theorem unpack_congr {IN IN' : List PackedWord} {W H C : Nat}
    (h : ∀ i < gridSamples W H C, sampleAt IN i = sampleAt IN' i) {x y c : Nat} (hx : x < W) (hy : y < H) (hc : c < C) :
    unpack IN W C x y c = unpack IN' W C x y c :=
  h _ (idx_lt_gridSamples hx hy hc)

/-- FILTERWORDS depends on the samples below `N` only (R104, R105, R154). -/
theorem filterWords_congr {IN IN' : List PackedWord} {W H C : Nat} (ws : Vector Reg32 9) (d : Reg32) (hW : 0 < W)
    (hC : 0 < C) (h : ∀ i < gridSamples W H C, sampleAt IN i = sampleAt IN' i) :
    filterWords IN W H C ws d = filterWords IN' W H C ws d :=
  pack_congr hW hC fun _ hx _ hy _ hc => applyGrid_congr (fun _ hx' _ hy' => unpack_congr h hx' hy' hc) hx hy

end Sys2Proof.Machine
end

section
/-! The statements about the codec (R100 to R109). -/

namespace Sys2Proof.Proofs
open Sys2Proof.Machine

/-- Settles O45: the sample PACK put at the coordinate's flat index is the one UNPACK reads there. -/
theorem unpackPackRoundTrip : Obligations.UnpackPackRoundTrip :=
  fun _ _ _ G _ _ _ _ _ _ hx hy hc => unpack_pack G hx hy hc

/-- Settles O44: index of coordinates and coordinates of index are inverse to each other and stay in range. -/
theorem flatIndexIsBijection : Obligations.FlatIndexIsBijection := by
  refine fun W H C hW _ hC => ⟨fun x y c hx hy hc => ?_, fun i hi => ?_⟩
  · exact ⟨rfl, idx_lt_gridSamples hx hy hc, idxX_idx y hx hc, idxY_idx y hx hc, idxC_idx W x y hc⟩
  · obtain ⟨hx, hy, hc⟩ := idx_coords_lt hW hC hi
    exact ⟨hx, hy, hc, idx_coords W C i⟩

/-- Settles O46: the packed samples are IN's below `N` and zero from there on, and the samples determine the words. -/
theorem packUnpackNormalises : Obligations.PackUnpackNormalises := by
  intro W H C IN _ _ _ hlen
  have hlen : IN.length = gridWords W H C := hlen
  exact ⟨by rw [pack_length, hlen], fun i hi => sampleAt_pack_unpack IN (hlen ▸ hi), pack_unpack_eq_iff hlen⟩

/-- Settles O47: the words of FILTERWORDS are words of PACK. -/
theorem packedTrailingLanesAreZero : Obligations.PackedTrailingLanesAreZero :=
  ⟨fun _ _ _ _ _ _ _ hw hk hi => trailing_lane_pack hw hk hi, fun _ _ _ _ _ _ _ _ _ hw hk hi => trailing_lane_pack hw hk hi⟩

/-- Settles O48: UNPACK reads the samples below `N` only, and APPLY reads in-range coordinates only. -/
theorem trailingInputLanesIgnored : Obligations.TrailingInputLanesIgnored :=
  fun _ _ _ _ _ ws d hW _ hC h => filterWords_congr ws d hW hC h

end Sys2Proof.Proofs
end

section
/-! The engine's operations one by one (R12, R122 to R127): the coordinate a border replicates to, MAC as a sum over the nine
weights, the signs of a sum and of its rounding, and the quotients that fix a sample. -/

namespace Sys2Proof.Machine

/-- The coordinate GATHER reads along one axis: the neighbour's where it exists, else the nearest one (R122). -/
theorem clampI_coord_cases {x W : Nat} (d : Int) (hx : x < W) :
    (0 ≤ x + d → x + d < W → ((clampI (x + d) 0 (W - 1)).toNat : Int) = x + d) ∧
      (x + d < 0 → (clampI (x + d) 0 (W - 1)).toNat = 0) ∧
      ((W : Int) ≤ x + d → (clampI (x + d) 0 (W - 1)).toNat = W - 1) := by
  unfold clampI
  omega

/-- The sample GATHER reads at an offset of (0, 0) is the coordinate's own (R122). -/
theorem gather_center (G : Grid) {W H x y : Nat} (c : Nat) (hx : x < W) (hy : y < H) :
    gather G W H x y c 0 0 = (G x y c).toNat := by
  obtain ⟨hcol, -, -⟩ := clampI_coord_cases 0 hx
  obtain ⟨hrow, -, -⟩ := clampI_coord_cases 0 hy
  have hcol : (clampI (x + 0) 0 (W - 1)).toNat = x := by omega
  have hrow : (clampI (y + 0) 0 (H - 1)).toNat = y := by omega
  rw [gather, hcol, hrow]

/-- The column offset `dx` of weight `k = 3*(dy+1) + (dx+1)` (R81). -/
def weightColumn (k : Fin 9) : Int := k.val % 3 - 1

/-- The row offset `dy` of weight `k = 3*(dy+1) + (dx+1)` (R81). -/
def weightRow (k : Fin 9) : Int := k.val / 3 - 1

/-- MAC as a sum over the weights, each with the sample at its offset (R81, R124). -/
theorem macOver_eq_finsetSum (wv : Fin 9 → Rat) (g : Int → Int → Int) :
    macOver wv g = ∑ k : Fin 9, wv k * g (weightColumn k) (weightRow k) := by
  rw [macOver_eq_sum, Fin.sum_univ_castSucc, Fin.sum_univ_eight]
  rfl

/-- The nine products may be added in any order (R128). -/
theorem foldl_eq_macOver (wv : Fin 9 → Rat) (g : Int → Int → Int) {order : List (Int × Int)} (h : order.Perm neighbours) :
    order.foldl (fun sum o => sum + wv (weightIndex o.1 o.2) * g o.1 o.2) 0 = macOver wv g := by
  unfold macOver
  refine h.foldl_eq' (fun _ _ _ _ sum => ?_) 0
  exact add_right_comm sum _ _

/-- Weights that are 0 beside the centre leave the centre's product (R124). -/
theorem macOver_of_center {wv : Fin 9 → Rat} (h : ∀ k, k ≠ 4 → wv k = 0) (g : Int → Int → Int) :
    macOver wv g = wv 4 * g 0 0 := by
  rw [macOver_eq_finsetSum]
  exact Finset.sum_eq_single 4 (fun k _ hk => by rw [h k hk, zero_mul]) (by simp)

/-- Weights and samples that are not negative give a sum that is not negative (R124). -/
theorem macOver_nonneg {wv : Fin 9 → Rat} {g : Int → Int → Int} (hw : ∀ k, 0 ≤ wv k) (hg : ∀ dx dy, 0 ≤ g dx dy) :
    0 ≤ macOver wv g := by
  rw [macOver_eq_finsetSum]
  exact Finset.sum_nonneg fun k _ => mul_nonneg (hw k) (Int.cast_nonneg (hg _ _))

/-- A sum is at most nine products of the largest weight and the largest sample (R124, R129). -/
theorem abs_macOver_le {wv : Fin 9 → Rat} {g : Int → Int → Int} {B : Rat} (hw : ∀ k, |wv k| ≤ B)
    (hg : ∀ dx dy, 0 ≤ g dx dy ∧ g dx dy ≤ 255) : |macOver wv g| ≤ 9 * (B * 255) := by
  have product : ∀ (k : Fin 9) (dx dy : Int), |wv k * g dx dy| ≤ B * 255 := fun k dx dy => by
    obtain ⟨hlow, hhigh⟩ := hg dx dy
    rw [abs_mul, abs_of_nonneg (Int.cast_nonneg hlow : (0 : Rat) ≤ g dx dy)]
    exact mul_le_mul (hw k) (by exact_mod_cast hhigh) (Int.cast_nonneg hlow) ((abs_nonneg _).trans (hw k))
  rw [macOver_eq_finsetSum]
  calc |∑ k : Fin 9, wv k * g (weightColumn k) (weightRow k)|
      ≤ ∑ k : Fin 9, |wv k * g (weightColumn k) (weightRow k)| := Finset.abs_sum_le_sum_abs _ _
    _ ≤ ∑ _k : Fin 9, B * 255 := Finset.sum_le_sum fun k _ => product k _ _
    _ = 9 * (B * 255) := by simp

/-- Weights that are multiples of `1 / D` give a sum that is one (R124, R129). -/
theorem macOver_mul_eq_int {wv : Fin 9 → Rat} {D : Rat} (h : ∀ k, ∃ n : Int, wv k * D = n) (g : Int → Int → Int) :
    ∃ n : Int, macOver wv g * D = n := by
  choose n hn using h
  refine ⟨∑ k : Fin 9, n k * g (weightColumn k) (weightRow k), ?_⟩
  rw [macOver_eq_finsetSum, Finset.sum_mul, Int.cast_sum]
  refine Finset.sum_congr rfl fun k _ => ?_
  rw [Int.cast_mul, ← hn k, mul_right_comm]

/-- An integer is rounded to itself (R12). -/
theorem rne_intCast (n : Int) : rne n = n := (rne_eq_iff n n).2 (.inl (by simp))

/-- Rounding gives no positive number for one that is not positive (R12). -/
theorem rne_nonpos {q : Rat} (hq : q ≤ 0) : rne q ≤ 0 := by
  by_contra hpos
  have hone : (1 : Rat) ≤ rne q := by exact_mod_cast not_le.1 hpos
  have near : |q - rne q| ≤ 1 / 2 := (rne_nearest_even q).elim le_of_lt fun h => h.1.le
  linarith [neg_le_of_abs_le near]

/-- CLAMP gives 0x00 for what is not positive (R126). -/
theorem clamp_of_nonpos {r : Int} (hr : r ≤ 0) : clamp r = 0x00 := by
  have := toNat_clamp r
  exact BitVec.eq_of_toNat_eq (by simp; omega)

/-- CLAMP gives 0xFF from 255 on (R126). -/
theorem clamp_of_ge {r : Int} (hr : 255 ≤ r) : clamp r = 0xFF := by
  have := toNat_clamp r
  exact BitVec.eq_of_toNat_eq (by simp; omega)

/-- CLAMP leaves the numbers 0 to 255 as they are (R126). -/
theorem toNat_clamp_of_mem {r : Int} (hlow : 0 ≤ r) (hhigh : r ≤ 255) : ((clamp r).toNat : Int) = r := by
  rw [toNat_clamp]
  omega

/-- CLAMP of a sample is the sample (R126). -/
theorem clamp_toNat (b : Byte) : clamp b.toNat = b := by
  have := toNat_clamp_of_mem (r := b.toNat) (by omega) (by omega)
  exact BitVec.eq_of_toNat_eq (by omega)

/-- A channel packed as an image of its own keeps its samples (R103, R106, R121). -/
theorem unpack_pack_channel (G : Grid) {W H x y : Nat} (c : Nat) (hx : x < W) (hy : y < H) :
    unpack (pack (fun x y _ => G x y c) W H 1) W 1 x y 0 = G x y c :=
  unpack_pack (fun x y _ => G x y c) hx hy Nat.zero_lt_one

variable {G : Grid} {W H x y c : Nat} {wv : Fin 9 → Rat} {dv : Rat}

/-- A quotient that is not positive gives the sample 0 (R125 to R127). -/
theorem applyGrid_of_nonpos (h : macOver wv (gather G W H x y c) / dv ≤ 0) : applyGrid G W H wv dv x y c = 0 :=
  clamp_of_nonpos (rne_nonpos h)

/-- A quotient that is the value of a sample gives that sample (R125 to R127). -/
theorem applyGrid_of_eq_toNat {b : Byte} (h : macOver wv (gather G W H x y c) / dv = b.toNat) :
    applyGrid G W H wv dv x y c = b := by
  have hround : rne (macOver wv (gather G W H x y c) / dv) = b.toNat := by
    rw [h]
    exact rne_intCast b.toNat
  calc applyGrid G W H wv dv x y c = clamp (rne (macOver wv (gather G W H x y c) / dv)) := rfl
    _ = b := by rw [hround, clamp_toNat]

/-- With all weights but the centre's 0 and the centre's equal to the divisor, APPLY leaves the sample as it is (R127, R131). -/
theorem applyGrid_of_center (hx : x < W) (hy : y < H) (hdv : dv ≠ 0) (hcenter : wv 4 = dv) (h : ∀ k, k ≠ 4 → wv k = 0) :
    applyGrid G W H wv dv x y c = G x y c := by
  apply applyGrid_of_eq_toNat
  rw [macOver_of_center h, gather_center G c hx hy, hcenter, mul_div_cancel_left₀ _ hdv]
  rfl

end Sys2Proof.Machine
end

section
/-! The range of a finite weight (R76, R129). -/

namespace Sys2Proof.Machine

/-- The magnitude of a finite pattern, in units of `2^(-149)`: a 24-bit number times at most `2^253` (R76). -/
theorem f32units_lt {e f : Nat} (he : e ≤ 254) (hf : f < 2 ^ 23) : f32units e f < 2 ^ 24 * 2 ^ 253 := by
  cases e with
  | zero => exact hf.trans (by norm_num)
  | succ k =>
    calc (2 ^ 23 + f) * 2 ^ k < 2 ^ 24 * 2 ^ k := Nat.mul_lt_mul_of_pos_right (by omega) (Nat.two_pow_pos k)
      _ ≤ 2 ^ 24 * 2 ^ 253 := Nat.mul_le_mul_left _ (Nat.pow_le_pow_right two_pos (by omega))

/-- The absolute value of a finite pattern is below `2^128` (R76). -/
theorem abs_f32val_lt {b : Reg32} (h : f32finite b = true) : |f32val b| < 2 ^ 128 := by
  have hunits : (f32units (f32exp b) (f32frac b) : Rat) < 2 ^ 24 * 2 ^ 253 := by
    exact_mod_cast f32units_lt ((f32finite_iff b).1 h) (f32frac_lt b)
  rw [abs_f32val h, div_lt_iff₀ (by positivity)]
  exact hunits.trans_eq (by norm_num)

/-- The value of a finite pattern is a multiple of `2^(-149)` (R76). -/
theorem f32val_mul_eq_int {b : Reg32} (h : f32finite b = true) : ∃ n : Int, f32val b * 2 ^ 149 = n := by
  rw [f32val_eq_units h, mul_assoc, div_mul_cancel₀ _ (by positivity), signValue]
  split_ifs
  · exact ⟨-f32units (f32exp b) (f32frac b), by push_cast; ring⟩
  · exact ⟨f32units (f32exp b) (f32frac b), by push_cast; ring⟩

end Sys2Proof.Machine
end

section
/-! The statements about the engine's operations and results (R121 to R131). -/

namespace Sys2Proof.Proofs
open Sys2Proof.Machine

/-- Settles O49: column and row are the replicated coordinates, and the two axes behave the same way. -/
theorem gatherReplicatesBorder : Obligations.GatherReplicatesBorder := by
  intro G W H x y c dx dy hx hy _ _
  obtain ⟨colInside, colLeft, colRight⟩ := clampI_coord_cases dx hx
  obtain ⟨rowInside, rowAbove, rowBelow⟩ := clampI_coord_cases dy hy
  exact ⟨_, _, clampI_coord_lt x W dx hx, clampI_coord_lt y H dy hy, rfl, colInside, colLeft, colRight, rowInside,
    rowAbove, rowBelow⟩

/-- Settles O50: the fold is the sum of its nine products, and a permutation of the list folds to the same sum. -/
theorem macIsOrderIndependent : Obligations.MacIsOrderIndependent :=
  fun wv g => ⟨macOver_eq_sum wv g, fun _ horder => foldl_eq_macOver wv g horder⟩

/-- Settles O52: CLAMP is 0x00 up to 0, 0xFF from 255 on, and changes nothing in between. -/
theorem clampSaturates : Obligations.ClampSaturates :=
  fun _ => ⟨fun h => clamp_of_nonpos h.le, fun h => clamp_of_ge h.le, toNat_clamp_of_mem⟩

/-- Settles O53: APPLY reads one channel only, and packing that channel alone keeps its samples. -/
theorem channelsAreIndependent : Obligations.ChannelsAreIndependent := by
  intro IN W H C ws d x y c hx hy hc
  rw [unpack_filterWords IN ws d hx hy hc, unpack_filterWords _ ws d hx hy Nat.zero_lt_one]
  exact applyGrid_congr (fun _ hx' _ hy' => (unpack_pack_channel _ c hx' hy').symm) hx hy

/-- Settles O54: in the first three cases the quotient is not positive, in the last two it is the input sample. -/
theorem fixedResults : Obligations.FixedResults := by
  intro G W H x y c wv dv hx hy hdv
  refine ⟨fun hw => ?_, fun hG => ?_, fun hneg hw => ?_, fun hone hcenter h => ?_, fun hone hcenter h => ?_⟩
  · apply applyGrid_of_nonpos
    rw [macOver_of_center fun k _ => hw k, hw 4, zero_mul, zero_div]
  · have hsamples : ∀ dx dy, gather G W H x y c dx dy = 0 := fun dx dy => by
      rw [gather, hG _ (clampI_coord_lt x W dx hx) _ (clampI_coord_lt y H dy hy)]
      rfl
    apply applyGrid_of_nonpos
    simp [macOver_eq_sum, hsamples]
  · exact applyGrid_of_nonpos
      (div_nonpos_of_nonneg_of_nonpos (macOver_nonneg hw fun _ _ => (gather_range ..).1) hneg.le)
  · exact applyGrid_of_center hx hy hdv (hcenter.trans hone.symm) h
  · exact applyGrid_of_center hx hy hdv (hcenter.trans hone.symm) h

/-- Settles O55: each weight is a multiple of `2^(-149)` below `2^128`, and nine of them times 255 stay below `2^140`. -/
theorem sumRange : Obligations.SumRange := by
  intro w G W H x y c hfinite
  have hbound := abs_macOver_le (fun k => (abs_f32val_lt (hfinite k)).le) fun dx dy => gather_range G W H x y c dx dy
  exact ⟨macOver_mul_eq_int (fun k => f32val_mul_eq_int (hfinite k)) (gather G W H x y c),
    hbound.trans_lt (by norm_num)⟩

end Sys2Proof.Proofs
end

section
/-! The commands (R150 to R157, R160 to R162): what a busy block is left with by the host, the steps of a whole FILTER, and that
its writes, in any order, leave data memory as FILTER_ATOMIC does. -/

namespace Sys2Proof.Machine

variable {s t : State}

/-- While BUSY no line of the host changes STATUS, the job or the operand registers (R160, R161). -/
theorem LineEffect.keeps_command (h : LineEffect s t) (hb : s.state = .busy) :
    t.state = s.state ∧ t.err = s.err ∧ t.job = s.job ∧ t.regs = s.regs := by
  cases h with
  | ignored hnot => exact absurd hb hnot
  | clear hnot => exact absurd hb hnot
  | accept hnot => exact absurd hb hnot
  | setReg hnot => exact absurd hb hnot
  | _ => exact ⟨rfl, rfl, rfl, rfl⟩

/-- While BUSY only a step of the block or a reset changes STATUS, the job or the operand registers (R152, R160). -/
theorem step_keeps_command (hb : s.state = .busy) (h : step s = .next t) (hreset : s.turn ≠ .reset)
    (hblock : ∀ pick, s.turn ≠ .block pick) :
    t.state = s.state ∧ t.err = s.err ∧ t.job = s.job ∧ t.regs = s.regs := by
  have hturn := runTurn_of_step h
  cases hu : s.turn with
  | host n =>
    rw [hu] at hturn
    rcases hostStep_eq_next hturn with ⟨-, rfl⟩ | ⟨l, ps, -, hl⟩
    · exact ⟨rfl, rfl, rfl, rfl⟩
    · exact (runLine_effect hl).keeps_command hb
  | idle => rw [hu] at hturn; cases hturn; exact ⟨rfl, rfl, rfl, rfl⟩
  | block pick => exact absurd hu (hblock pick)
  | reset => exact absurd hu hreset

/-- CLEAR when STATE ≠ BUSY (R151). -/
theorem exec_clear (hb : s.state ≠ .busy) : exec .clear s = .next { s with state := .idle, err := .none, job := .none } :=
  unlessBusy_of_not_busy hb _

/-- FILTER when STATE ≠ BUSY (R152). -/
theorem exec_filter (hb : s.state ≠ .busy) : exec .filter s = .next (s.accept .filter) := unlessBusy_of_not_busy hb _

/-- The host's write of 0x00000001 to CTRL accepts a FILTER (R152). -/
theorem step_accepts_filter {n : Bool} {ps : List HostLine} {ts : List Turn} (hm : s.unmarked = true)
    (hb : s.state ≠ .busy) (ht : s.turns = .host n :: ts) (hp : s.prog = ctrlLine 0x00000001 :: ps) :
    step s = .next (State.accept { s with prog := ps, turns := ts } .filter) := by
  rw [step_of_ctrlLine hm ht hp ((decodeCtrl_eq_instr _ .filter).2 encode_filter.symm)]
  exact exec_filter (s := { s with prog := ps, turns := ts }) hb

/-- With every word written, the block's turn completes the FILTER (R156). -/
theorem step_completes {R old : List PackedWord} {pick : Nat} {ts : List Turn} (hm : s.unmarked = true)
    (ht : s.turns = .block pick :: ts) (hj : s.job = .writing R [] old) :
    step s = .next { s with state := .done, job := .none, turns := ts } := by
  rw [step_of_turns hm ht]
  simp only [runTurn, blockStep, hj, if_true, Machine.complete]

/-- The invariant of a writing job, for the descriptor that passed validation (R37). -/
theorem State.Inv.writingOk_of_go {d : Descriptor} {R : List PackedWord} {todo : List Nat} {old : List PackedWord}
    (hs : s.Inv) (hj : s.job = .writing R todo old) (hv : s.verdict = .go d) : s.WritingOk R todo old d := by
  obtain ⟨d', hd⟩ := hs.writingOk hj
  obtain rfl : d' = d := Verdict.go.inj (hd.verdict.symm.trans hv)
  exact hd

/-- A block turn of a FILTER that is writing writes the picked word (R155). -/
theorem step_writes_picked {d : Descriptor} {R : List PackedWord} {todo : List Nat} {old : List PackedWord} {pick : Nat}
    {ts : List Turn} (hs : s.Inv) (hm : s.unmarked = true) (ht : s.turns = .block pick :: ts) (hv : s.verdict = .go d)
    (hj : s.job = .writing R todo old) (htodo : todo ≠ []) :
    ∃ j ∈ todo, j = pickIndex todo pick ∧ j < d.wordCount ∧ ∃ v, R[j]? = some v ∧ step s = .next { s with
      mem := s.mem.writeWord (d.ob + j) v
      job := .writing R (todo.erase j) old
      turns := ts } := by
  have hd := hs.writingOk_of_go hj hv
  have hmem := pickIndex_mem htodo pick
  obtain ⟨v, hword⟩ := hd.exists_result hmem
  refine ⟨_, hmem, rfl, hd.todo_lt _ hmem, v, hword, ?_⟩
  rw [step_of_turns hm ht]
  exact blockStep_of_writing (s := { s with turns := ts }) hj
    (hd.of_used_words rfl rfl (fun _ _ => rfl) fun _ _ => rfl) rfl hmem hword

/-- A validation that reports an architectural error ends the FILTER with it (R153). -/
theorem step_of_archError {d : Descriptor} {e : ArchError} {pick : Nat} {ts : List Turn} (hm : s.unmarked = true)
    (ht : s.turns = .block pick :: ts) (hj : s.job = .pending .filter) (hd : s.regs.descriptor = some d)
    (he : d.archError = some e) :
    step s = .next { s with state := .error, err := e.code, job := .none, turns := ts } := by
  have hv : State.verdict { s with turns := ts } = .error e := by
    simp only [State.verdict, hd, Descriptor.verdict, he]
  rw [step_of_pending_filter hm ht hj, validate, hv]
  rfl

/-- FILTER_ATOMIC with an architectural error (R162). -/
theorem filterAtomic_of_error {d : Descriptor} {e : ArchError} (h : d.archError = some e) (m : Memory) :
    filterAtomic d m = (.error, e.code, m) := by
  simp only [filterAtomic, h]

/-- FILTER_ATOMIC when every architectural check passes (R162). -/
theorem filterAtomic_of_no_error {d : Descriptor} (h : d.archError = none) (m : Memory) :
    filterAtomic d m = (.done, .none, m.writeWords d.ob (d.result m)) := by
  simp only [filterAtomic, h]

/-- Canonical memories whose words read alike are equal (R50, R52). -/
theorem Memory.ext_of_readWord {m m' : Memory} (hm : m.wf) (hm' : m'.wf) (h : ∀ a, m.readWord a = m'.readWord a) :
    m = m' := by
  refine Memory.ext_of_readByte m m' hm hm' fun a => ?_
  have hlane : a % 16 < 16 := Nat.mod_lt a (by omega)
  have hbyte : byteNumber (a / 16) (a % 16) = a := Nat.div_add_mod a 16
  rw [← hbyte, ← Memory.lane_readWord m _ hlane, h, Memory.lane_readWord m' _ hlane]

/-- With no word left to write, data memory is what it was outside the used output range with the result words written from
OUT_BASE on, whatever order they were written in (R58, R162). -/
theorem State.WritingOk.mem_eq_writeWords {R old : List PackedWord} {d : Descriptor} {m : Memory}
    (h : s.WritingOk R [] old d) (hs : s.mem.wf) (hm : m.wf)
    (hout : ∀ a, ¬ (d.ob ≤ a ∧ a < d.ob + d.wordCount) → s.mem.readWord a = m.readWord a) :
    s.mem = m.writeWords d.ob R := by
  refine Memory.ext_of_readWord hs (Memory.writeWords_wf m _ R hm) fun a => ?_
  rw [Memory.readWord_writeWords _ _ _ _ hm]
  by_cases hin : d.ob ≤ a ∧ a < d.ob + d.wordCount
  · obtain ⟨hlow, hhigh⟩ := hin
    have hword := h.written (a - d.ob) (by omega) List.not_mem_nil
    rw [if_pos hlow, ← hword, Option.getD_some, Nat.add_sub_cancel' hlow]
  · rw [hout a hin]
    split_ifs with hlow
    · rw [List.getElem?_eq_none (by rw [h.length_result]; omega), Option.getD_none]
    · rfl

/-- From a FILTER that is writing, one block turn for each word left and one more reach DONE, whatever the picks. `m` is data
memory as it was before the first write (R155, R156, R162). -/
theorem run_of_writing {d : Descriptor} {R old : List PackedWord} {m : Memory} {ts : List Turn} (picks : List Nat)
    {todo : List Nat} (hs : s.Inv) (hm : s.unmarked = true) (hv : s.verdict = .go d) (hj : s.job = .writing R todo old)
    (ht : s.turns = picks.map Turn.block ++ ts) (hlen : picks.length = todo.length + 1) (hwf : m.wf)
    (hout : ∀ a, ¬ (d.ob ≤ a ∧ a < d.ob + d.wordCount) → s.mem.readWord a = m.readWord a) :
    core.run (todo.length + 1) s =
      .next { s with state := .done, job := .none, mem := m.writeWords d.ob R, turns := ts } := by
  induction picks generalizing s todo with
  | nil => simp at hlen
  | cons pick picks ih =>
    have hlen : picks.length = todo.length := Nat.succ.inj hlen
    by_cases htodo : todo = []
    · subst htodo
      obtain rfl : picks = [] := List.eq_nil_of_length_eq_zero hlen
      have hd := hs.writingOk_of_go hj hv
      rw [run_succ_of_next _ (step_completes hm ht hj), ← hd.mem_eq_writeWords hs.mem_wf hwf hout]
      rfl
    · obtain ⟨j, hmem, -, hlt, v, -, hstep⟩ := step_writes_picked hs hm ht hv hj htodo
      have hleft : todo.length = (todo.erase j).length + 1 := by
        have hpos := List.length_pos_of_mem hmem
        rw [List.length_erase_of_mem hmem]
        omega
      rw [run_succ_of_next _ hstep, hleft, ih (step_keeps_inv hs hstep) hm hv rfl rfl (hlen.trans hleft) fun a ha => ?_]
      rw [Memory.readWord_writeWord _ _ _ _ hs.mem_wf, if_neg (by omega), hout a ha]

/-- From a pending FILTER that passes validation, `1 + NW + 1` block turns reach DONE with the result words in the used output
range (R153, R155, R156, R162). -/
theorem run_of_pending_filter {d : Descriptor} {picks : List Nat} {ts : List Turn} (hs : s.Inv) (hm : s.unmarked = true)
    (hv : s.verdict = .go d) (hj : s.job = .pending .filter) (ht : s.turns = picks.map Turn.block ++ ts)
    (hlen : picks.length = 1 + d.wordCount + 1) :
    core.run (1 + d.wordCount + 1) s = .next { s with
      state := .done
      job := .none
      mem := s.mem.writeWords d.ob (d.result s.mem)
      turns := ts } := by
  cases picks with
  | nil => rw [List.length_nil] at hlen; omega
  | cons pick picks =>
    have hstart := step_of_verdict_go hm ht hj hv
    have hn : (List.range d.wordCount).length = d.wordCount := List.length_range
    have hrun := run_of_writing picks (step_keeps_inv hs hstart) hm hv rfl rfl
      (by rw [List.length_cons] at hlen; omega) hs.mem_wf fun _ _ => rfl
    rw [hn] at hrun
    rw [show 1 + d.wordCount + 1 = (d.wordCount + 1) + 1 by omega, run_succ_of_next _ hstart, hrun]

end Sys2Proof.Machine
end

section
/-! The statements about the commands (R150 to R162). -/

namespace Sys2Proof.Proofs
open Sys2Proof.Machine

/-- Settles O35: after the host's step the FILTER is pending, and its steps end with STATUS and data memory of FILTER_ATOMIC. -/
theorem filterRunEqualsAtomic : Obligations.FilterRunEqualsAtomic := by
  intro s d n picks ps ts hs hm hb hp ht hd
  have haccept := step_accepts_filter hm hb ht hp
  refine ⟨fun hv hlen => ?_, fun e he hlen => ?_⟩
  · obtain ⟨-, harch, -⟩ := (s.verdict_eq_go d).1 hv
    have hrun := run_of_pending_filter (step_keeps_inv hs haccept) hm hv rfl rfl hlen
    rw [filterAtomic_of_no_error harch, Nat.add_comm 1 (1 + d.wordCount + 1), run_succ_of_next _ haccept]
    exact hrun
  · obtain ⟨pick, rfl⟩ := List.length_eq_one_iff.1 hlen
    have hend := step_of_archError (s := State.accept { s with prog := ps, turns := .block pick :: ts } .filter) hm rfl rfl
      hd he
    rw [filterAtomic_of_error he, run_succ_of_next 1 haccept]
    exact run_succ_of_next 0 hend

/-- Settles O27: with every check passed the verdict is GO, and the job it starts holds the result. -/
theorem validationStartsWriting : Obligations.ValidationStartsWriting := by
  intro s d pick ts hm ht hj hd he hdisjoint hib hob
  have hoverlap : d.overlaps = false := by
    rw [← Bool.not_eq_true, d.overlaps_iff]
    rintro ⟨i, hi, j, hj, heq⟩
    exact hdisjoint i hi j hj heq
  have hv : s.verdict = .go d := (s.verdict_eq_go d).2 ⟨hd, he, hoverlap, (d.pastMemory_eq_false _).2 ⟨hib, hob⟩⟩
  exact step_of_verdict_go hm ht hj hv

/-- Settles O29: while BUSY the host's lines and idle steps leave the command as it is. -/
theorem busyEndsByBlockOrReset : Obligations.BusyEndsByBlockOrReset := by
  intro s t hb h hreset hblock
  obtain ⟨hstate, -, hjob, hregs⟩ := step_keeps_command hb h hreset hblock
  exact ⟨hstate.trans hb, hjob, hregs⟩

/-- Settles O31: the step is the write of the picked word, whose bytes are the only ones that change. -/
theorem writeStepWritesOneWord : Obligations.WriteStepWritesOneWord := by
  intro s d R todo old hs hm hj hv htodo
  refine ⟨fun j hmem => exists_pickIndex hmem, fun pick ts ht => ?_⟩
  obtain ⟨j, hmem, hpick, -, v, hword, hstep⟩ := step_writes_picked hs hm ht hv hj htodo
  refine ⟨j, hmem, hpick, v, hword, _, hstep, ?_, fun a ha => ?_⟩
  · rw [Memory.readWord_writeWord _ _ _ _ hs.mem_wf, if_pos rfl]
  · rw [Memory.readByte_writeWord _ _ _ _ hs.mem_wf, if_neg ha]

/-- Settles O15: the listed turn is the one the step takes. -/
theorem anyTurnMayBeNext : Obligations.AnyTurnMayBeNext :=
  fun s u ts hm => step_of_turns (s := { s with turns := u :: ts }) hm rfl

/-- Settles O57: each of the three turns answers the state it is given. -/
theorem idleTurnsChangeNothing : Obligations.IdleTurnsChangeNothing := by
  intro s ts hm
  refine ⟨fun ht => step_of_turns hm ht, fun n ht hp => ?_, fun pick ht hj => ?_⟩
  · rw [step_of_turns hm ht]
    simp only [runTurn, hostStep, hp]
  · rw [step_of_turns hm ht]
    simp only [runTurn, blockStep, hj]

/-- Settles O16: CLEAR sets what IDLE, by the invariant, already has. -/
theorem clearEffect : Obligations.ClearEffect := by
  refine fun s => ⟨exec_clear, fun hb => exec_of_busy hb .clear, fun hs hidle => ?_⟩
  have hb : s.state ≠ .busy := by simp [hidle]
  have herr : s.err = .none := hs.err_of_not_error (by simp [hidle])
  rw [exec_clear hb, ← hidle, ← herr, ← hs.job_of_not_busy hb]

/-- Settles O17: the acceptance reads no operand register, and while BUSY the host changes nothing of the command. -/
theorem filterAcceptEffect : Obligations.FilterAcceptEffect := by
  refine ⟨fun s hb => ⟨exec_filter hb, fun n ps ts hm ht hp => step_accepts_filter hm hb ht hp⟩,
    fun s t hb h hchange => ?_⟩
  by_contra hother
  obtain ⟨hreset, hblock⟩ := not_or.1 hother
  obtain ⟨hstate, herr, hjob, -⟩ := step_keeps_command hb h hreset (not_exists.1 hblock)
  simp [hstate, herr, hjob] at hchange

/-- Settles O18: both commands change STATUS and the job only. -/
theorem commandFrame : Obligations.CommandFrame := by
  intro i s t h
  obtain ⟨-, rfl | rfl⟩ := exec_eq_next h
  · exact ⟨fun _ => rfl, fun _ => rfl, rfl, rfl, rfl, rfl, rfl, rfl, rfl⟩
  · exact ⟨fun _ => rfl, fun _ => rfl, rfl, rfl, rfl, rfl, rfl, rfl, rfl⟩

/-- Settles O19: the value decodes to RESERVED, which is accepted like a FILTER and ended by the block's next turn. -/
theorem reservedCommandEndsIllegal : Obligations.ReservedCommandEndsIllegal := by
  refine ⟨fun s v n ps ts hm hb hclear hfilter ht hp => ?_, fun s v pick ts hm hj ht => ?_⟩
  · have hv : decodeCtrl v = .reserved v := by rw [decodeCtrl_eq_ite, if_neg hclear, if_neg hfilter]
    have hwrite := hostWrite_offset (s := { s with prog := ps, turns := ts }) hb .ctrl v
    rw [writeReg, runCtrl, hv] at hwrite
    rw [step_of_line hm ht hp]
    exact hwrite.trans (unlessBusy_of_not_busy hb _)
  · rw [step_of_turns hm ht]
    simp only [runTurn, blockStep, hj]
    rfl

/-- Settles O20: the guard of the register window faults, and the mark it sets is what every later step answers. -/
theorem busyRegisterWriteFaults : Obligations.BusyRegisterWriteFaults := by
  intro s off size v n ps ts hm hb ht hp
  have hfault : step s = .fault .busyWrite := by
    rw [step_of_line hm ht hp]
    exact unlessBusy_of_busy hb _
  rw [advance_of_fault hfault]
  exact ⟨hfault, rfl, fun _ => step_of_faultMark rfl⟩

/-- Settles O32: while BUSY, ERR is NONE already. -/
theorem completeStepReportsDone : Obligations.CompleteStepReportsDone := by
  intro s R old pick ts hs hm ht hj
  have herr : s.err = .none := hs.err_of_busy (hs.busy (by simp [hj]))
  rw [step_completes hm ht hj, ← herr]

end Sys2Proof.Proofs
end

section
/-! Errors, stuck commands and marks (R164, R171, R172, R174, R178, R179): which architectural error a descriptor has, the block's
turn on a stuck FILTER, and what each turn makes of the marks. -/

namespace Sys2Proof.Machine

variable {s t : State}

/-- `NW` against a count register, as R101 writes it: without cutting a negative number of words off at zero. -/
theorem Descriptor.lt_wordCount_iff (d : Descriptor) (n : Nat) :
    n < d.wordCount ↔ (n : Int) < (d.W * d.H * d.C + 15) / 16 := Int.lt_toNat

/-- The conditions of R171: a dimension that is not positive, or a count register below `NW`. -/
theorem Descriptor.archError_eq_shape (d : Descriptor) :
    d.archError = some .shape ↔ d.W ≤ 0 ∨ d.H ≤ 0 ∨ d.C ≤ 0 ∨ d.iw < d.wordCount ∨ d.ow < d.wordCount := by
  unfold Descriptor.archError
  split_ifs with hdim hiw how hdiv hweight
  · exact iff_of_true rfl (by omega)
  · exact iff_of_true rfl (by omega)
  · exact iff_of_true rfl (by omega)
  · exact iff_of_false (by simp) (by omega)
  · exact iff_of_false (by simp) (by omega)
  · exact iff_of_false (by simp) (by omega)

/-- The conditions of R172 on the divisor and the weights, when none of R171 holds (R174). -/
theorem Descriptor.archError_eq_config (d : Descriptor) :
    d.archError = some .config ↔ d.archError ≠ some .shape ∧
      (f32isZero d.d = true ∨ f32finite d.d = false ∨ ∃ k : Fin 9, f32finite d.w[k.val] = false) := by
  unfold Descriptor.archError
  split_ifs with hdim hiw how hdiv hweight
  · simp
  · simp
  · simp
  · exact iff_of_true rfl ⟨by simp, hdiv.imp_right .inl⟩
  · exact iff_of_true rfl ⟨by simp, .inr (.inr hweight)⟩
  · exact iff_of_false (by simp) fun ⟨_, hbad⟩ => (or_assoc.2 hbad).elim hdiv hweight

/-- The block's turn leaves a stuck FILTER as it is (R59, R179; log 13). -/
theorem blockStep_of_stuck (pick : Nat) (hj : s.job = .pending .filter) (hv : s.verdict = .stuck) :
    blockStep pick s = .next s := by
  simp only [blockStep, hj, validate, hv]

/-- A state with a fault mark is not final (R164). -/
theorem State.final_of_faultMark {f : Fault} (h : s.faultMark = some f) : s.final = false := by
  simp [State.final, State.unmarked, h]

/-- A state with a refusal mark is not final (R164). -/
theorem State.final_of_refusalMark {r : Refusal} (h : s.refusalMark = some r) : s.final = false := by
  simp [State.final, State.unmarked, h]

/-- No turn writes a mark: a mark is set by the stop of a step alone (R178). -/
theorem TurnEffect.unmarked_eq (h : TurnEffect s t) : t.unmarked = s.unmarked := by
  cases h with
  | idle => rfl
  | line rest h => cases h <;> rfl
  | block h => cases h <;> rfl
  | reset => rfl

end Sys2Proof.Machine
end

section
/-! The statements about errors, stuck commands and marks (R164, R171, R172, R178, R179). -/

namespace Sys2Proof.Proofs
open Sys2Proof.Machine

/-- Settles O25: the validation ends the FILTER with the error of its descriptor, which the conditions name. -/
theorem validationReportsErrors : Obligations.ValidationReportsErrors := by
  intro s d pick ts hm ht hj hd
  constructor
  · intro hbad
    have he : d.archError = some .shape := by
      rwa [d.archError_eq_shape, d.lt_wordCount_iff, d.lt_wordCount_iff]
    exact step_of_archError hm ht hj hd he
  · intro hW hH hC hiw how hbad
    have hshape : d.archError ≠ some .shape := by
      rw [Ne, d.archError_eq_shape, d.lt_wordCount_iff, d.lt_wordCount_iff]
      omega
    exact step_of_archError hm ht hj hd (d.archError_eq_config.2 ⟨hshape, hbad⟩)

/-- Settles O28: the block's turn leaves a stuck FILTER as it is, and no other turn but a reset reaches the command or the
registers while BUSY. -/
theorem stuckUntilReset : Obligations.StuckUntilReset := by
  intro s t hb hj hv h hreset
  by_cases hblock : ∃ pick, s.turn = .block pick
  · obtain ⟨pick, hu⟩ := hblock
    have hturn := runTurn_of_step h
    rw [hu, runTurn, blockStep_of_stuck (s := s.dropTurn) pick hj hv] at hturn
    cases hturn
    exact ⟨hb, hj, hv⟩
  · obtain ⟨hstate, -, hjob, hregs⟩ := step_keeps_command hb h hreset (not_exists.1 hblock)
    have hwords : t.memWords = s.memWords := (step_effect h).2.memWords_eq
    exact ⟨hstate.trans hb, hjob.trans hj, (State.verdict_congr hregs hwords).trans hv⟩

/-- Settles O43: a stop sets its mark, a marked state answers its mark whatever turns are listed, and no turn writes a mark. -/
theorem marksAreSticky : Obligations.MarksAreSticky := by
  refine ⟨fun s f h => ?_, fun s r h => ?_,
    fun s f h => ⟨State.final_of_faultMark h, fun us => advance_keeps_faultMark (s := { s with turns := us }) h⟩,
    fun s r h => ⟨State.final_of_refusalMark h, fun us => advance_keeps_refusalMark (s := { s with turns := us }) h⟩,
    fun s t h => ?_⟩
  · rw [advance_of_fault h]
    exact ⟨rfl, State.final_of_faultMark rfl⟩
  · rw [advance_of_refused h]
    exact ⟨rfl, State.final_of_refusalMark rfl⟩
  · obtain ⟨hm, heffect⟩ := step_effect h
    exact heffect.unmarked_eq.trans hm

end Sys2Proof.Proofs
end

section
/-! Reset and hazards (R190, R191, R196): that any contents of data memory can be written down, what the output words hold while
the block writes, and which words a FILTER in progress guards. -/

namespace Sys2Proof.Machine

variable {s : State}

/-- Whatever bytes the numbers below `n` hold, a canonical data memory lists them and nothing past them (R190, log 2). -/
theorem Memory.exists_of_contents (contents : Nat → Byte) (n : Nat) :
    ∃ m : Memory, m.wf ∧ (∀ c ∈ m, c.1 < n) ∧ ∀ a < n, m.readByte a = contents a := by
  induction n with
  | zero => exact ⟨[], Memory.wf_nil, by simp, by simp⟩
  | succ n ih =>
    obtain ⟨m, hwf, hbound, hread⟩ := ih
    have hbound' : ∀ c ∈ m, c.1 < n + 1 := fun c hc => Nat.lt_succ_of_lt (hbound c hc)
    refine ⟨m.writeByte n (contents n), Memory.writeByte_wf _ _ _ hwf,
      Memory.writeByte_bound _ _ _ _ hbound' n.lt_succ_self, fun a ha => ?_⟩
    rw [Memory.readByte_writeByte _ _ _ _ hwf]
    split_ifs with h
    · rw [h]
    · exact hread a (by omega)

/-- While the block writes, a used output word holds its old value if it is still to be written, and its result if not (R58). -/
theorem State.WritingOk.output_word {R : List PackedWord} {todo : List Nat} {old : List PackedWord} {d : Descriptor} {j : Nat}
    (h : s.WritingOk R todo old d) (hj : j < d.wordCount) :
    some (s.mem.readWord (d.ob + j)) = if j ∈ todo then old[j]? else R[j]? := by
  split_ifs with hmem
  · exact h.unwritten j hmem
  · exact h.written j hj hmem

/-- Of the jobs, a pending FILTER and one that is writing are a FILTER in progress (R37, R51). -/
theorem State.filterInProgress_iff (s : State) :
    s.filterInProgress = true ↔ s.job = .pending .filter ∨ ∃ R todo old, s.job = .writing R todo old := by
  unfold State.filterInProgress
  cases s.job with
  | none => simp
  | pending c => cases c <;> simp
  | writing R todo old => simp

end Sys2Proof.Machine
end

section
/-! The statements about reset and the buffer-write hazard (R190, R191, R196). -/

namespace Sys2Proof.Proofs
open Sys2Proof.Machine

/-- Settles O2: a reset turn leaves data memory, whose output words are as the invariant says of the job that was writing. -/
theorem resetWhileWritingKeepsEachWord : Obligations.ResetWhileWritingKeepsEachWord := by
  intro s d R todo old ts hs hm ht hj hv
  have hd := hs.writingOk_of_go hj hv
  exact ⟨_, step_of_turns hm ht, statusWord_idle_none, rfl, fun _ => hd.output_word, fun _ => rfl⟩

/-- Settles O39: the word is a used word of the FILTER in progress by the registers alone, and a write of a used word is
guarded. -/
theorem usedRangesAreGuardedWhileBusy : Obligations.UsedRangesAreGuardedWhileBusy := by
  intro s w h c b a j n ps ts hm hb hj hw hh hc hbase hlt ha ht
  have hused : s.usesWord a.toNat = true :=
    (s.usesWord_iff _).2 ⟨s.filterInProgress_iff.2 hj, w, h, c, b, j, hw, hh, hc, hbase, hlt, ha⟩
  exact step_write_used hm ht hb hused

/-- Settles O56: the launch on the list of the contents below MEM_WORDS. -/
theorem launchMemoryIsUnconstrained : Obligations.LaunchMemoryIsUnconstrained := by
  intro contents
  obtain ⟨m, hwf, hbound, hread⟩ := Memory.exists_of_contents contents (byteNumber Config.memWords.val 0)
  exact ⟨m, State.launch_inv hwf hbound, hread⟩

end Sys2Proof.Proofs
end
